-- ==== Sys2Proof/Word.lean ====
section
/-! DEFINITION. The word and digit types of the block. -/

namespace Sys2Proof

/-- A 64-bit word: the operand word and the bit form of the result (R60, R70). -/
abbrev Word := BitVec 64

/-- A digit is 0 or 1 (R9): `false` is the digit 0, `true` the digit 1. -/
abbrev Digit := Bool

/-- A digit sequence, its first digit the most significant and first generated one (R9). -/
abbrev Digits := List Digit

end Sys2Proof
end

