-- ==== Sys2Proof/Syntax.lean ====
section
/-! DEFINITION. The operand classes (R65) and the instructions, one constructor per row of `spec/opcode_table.json`. -/

namespace Sys2Proof

/-- The eight operand classes of R65. -/
inductive OperandClass where
  | nan
  | pinf
  | ninf
  | zero
  | subnormal
  | fraction
  | mixed
  | clamp
  deriving DecidableEq, Repr

/-- The rows of the opcode table. ENCODE is the block's only operation (R75); the row ENCODE takes any operand word,
and each class row `ENCODE.<CLASS>` is ENCODE restricted to one operand class (R77), with the operand fields of R60
that its class leaves free: sign digit `s`, exponent field `e`, mantissa field `f`. -/
inductive Instr where
  /-- ENCODE on any operand word (R90). -/
  | encode (w : Word)
  /-- ENCODE.NAN: `e = 2047`, `f != 0` (R111). -/
  | encodeNan (s : Digit) (f : BitVec 52)
  /-- ENCODE.PINF: `s = 0`, `e = 2047`, `f = 0` (R112). -/
  | encodePinf
  /-- ENCODE.NINF: `s = 1`, `e = 2047`, `f = 0` (R112). -/
  | encodeNinf
  /-- ENCODE.ZERO: `e = 0`, `f = 0` (R173). -/
  | encodeZero (s : Digit)
  /-- ENCODE.SUBNORMAL: `e = 0`, `f != 0` (R181). -/
  | encodeSubnormal (s : Digit) (f : BitVec 52)
  /-- ENCODE.FRACTION: `1 <= e <= 1022` (R203). -/
  | encodeFraction (s : Digit) (e : BitVec 11) (f : BitVec 52)
  /-- ENCODE.MIXED: `1023 <= e <= 1074` (R203). -/
  | encodeMixed (s : Digit) (e : BitVec 11) (f : BitVec 52)
  /-- ENCODE.CLAMP: `1075 <= e <= 2046` (R175). -/
  | encodeClamp (s : Digit) (e : BitVec 11) (f : BitVec 52)
  deriving DecidableEq, Repr

end Sys2Proof
end

