-- ==== Sys2Proof/WellFormed.lean ====
section
/-! DEFINITION. Which terms of `Instr` are operand words of their row (the field constraints of R65). -/

namespace Sys2Proof

/-- The field constraint of the instruction's row of the opcode table holds (R65). -/
def Instr.wellFormed : Instr → Bool
  | .encode _ => true
  | .encodeNan _ f => f != 0
  | .encodePinf => true
  | .encodeNinf => true
  | .encodeZero _ => true
  | .encodeSubnormal _ f => f != 0
  | .encodeFraction _ e _ => decide (1 ≤ e.toNat ∧ e.toNat ≤ 1022)
  | .encodeMixed _ e _ => decide (1023 ≤ e.toNat ∧ e.toNat ≤ 1074)
  | .encodeClamp _ e _ => decide (1075 ≤ e.toNat ∧ e.toNat ≤ 2046)

/-- The instruction is of one of the eight class rows, not of the row ENCODE, which holds them all (R75). -/
def Instr.isClassRow : Instr → Bool
  | .encode _ => false
  | .encodeNan _ _ => true
  | .encodePinf => true
  | .encodeNinf => true
  | .encodeZero _ => true
  | .encodeSubnormal _ _ => true
  | .encodeFraction _ _ _ => true
  | .encodeMixed _ _ _ => true
  | .encodeClamp _ _ _ => true

end Sys2Proof
end

