-- ==== Sys2Proof/Decode.lean ====
section
/-! DEFINITION. The operand word's fields, the opcode table's rows, the decoder (total on 64-bit words, R67) and the
encoder, written from R60, R65 and `spec/opcode_table.json`. -/

namespace Sys2Proof

/-! ## Operand fields (R60) -/

/-- `s = w[63]`. -/
def signField (w : Word) : Digit := w.getLsbD 63

/-- `e = w[62:52]`. -/
def expField (w : Word) : BitVec 11 := w.extractLsb' 52 11

/-- `f = w[51:0]`. -/
def fracField (w : Word) : BitVec 52 := w.extractLsb' 0 52

/-- `m = w[62:0]`, the word with its sign removed. -/
def magField (w : Word) : BitVec 63 := w.extractLsb' 0 63

/-- The word `(s, e, f)` with these three fields, the sign in the most significant position. -/
def packFields (s : Digit) (e : BitVec 11) (f : BitVec 52) : Word := (BitVec.ofBool s ++ e) ++ f

/-! ## Operand classes (R65, R66) -/

/-- `cls(w)`: the class of R65 that `w` belongs to, by its fields. -/
def classOf (w : Word) : OperandClass :=
  if expField w = 2047 then
    if fracField w ≠ 0 then .nan else if signField w then .ninf else .pinf
  else if expField w = 0 then
    if fracField w = 0 then .zero else .subnormal
  else if (expField w).toNat ≤ 1022 then .fraction
  else if (expField w).toNat ≤ 1074 then .mixed
  else .clamp

/-! ## The opcode table -/

/-- What a row asks of the mantissa field. -/
inductive FracRule where
  | any
  | zero
  | nonzero
  deriving DecidableEq, Repr

/-- A row of `spec/opcode_table.json`: its mask and match, its field constraints on `e` and `f`, and the equivalent
range of `m = w[62:0]`. -/
structure Row where
  mnemonic : String
  mask : Word
  pattern : Word
  eMin : Nat
  eMax : Nat
  frac : FracRule
  mMin : Nat
  mMax : Nat
  deriving DecidableEq, Repr

/-- The row ENCODE: mask 0, it matches every word (R75). -/
def encodeRow : Row := ⟨"ENCODE", 0, 0, 0, 2047, .any, 0, 0x7FFFFFFFFFFFFFFF⟩

/-- The row of an operand class (R65, R75). -/
def OperandClass.row : OperandClass → Row
  | .nan =>
    ⟨"ENCODE.NAN", 0x7FF0000000000000, 0x7FF0000000000000, 2047, 2047, .nonzero, 0x7FF0000000000001, 0x7FFFFFFFFFFFFFFF⟩
  | .pinf =>
    ⟨"ENCODE.PINF", 0xFFFFFFFFFFFFFFFF, 0x7FF0000000000000, 2047, 2047, .zero, 0x7FF0000000000000, 0x7FF0000000000000⟩
  | .ninf =>
    ⟨"ENCODE.NINF", 0xFFFFFFFFFFFFFFFF, 0xFFF0000000000000, 2047, 2047, .zero, 0x7FF0000000000000, 0x7FF0000000000000⟩
  | .zero => ⟨"ENCODE.ZERO", 0x7FFFFFFFFFFFFFFF, 0, 0, 0, .zero, 0, 0⟩
  | .subnormal => ⟨"ENCODE.SUBNORMAL", 0x7FF0000000000000, 0, 0, 0, .nonzero, 1, 0x000FFFFFFFFFFFFF⟩
  | .fraction => ⟨"ENCODE.FRACTION", 0, 0, 1, 1022, .any, 0x0010000000000000, 0x3FEFFFFFFFFFFFFF⟩
  | .mixed => ⟨"ENCODE.MIXED", 0, 0, 1023, 1074, .any, 0x3FF0000000000000, 0x432FFFFFFFFFFFFF⟩
  | .clamp => ⟨"ENCODE.CLAMP", 0, 0, 1075, 2046, .any, 0x4330000000000000, 0x7FEFFFFFFFFFFFFF⟩

/-- The mantissa field meets the row's rule. -/
def FracRule.holds : FracRule → BitVec 52 → Bool
  | .any, _ => true
  | .zero, f => f == 0
  | .nonzero, f => f != 0

/-- "a word matches a class row when (w AND mask) = match and every field constraint holds" (the table's note). -/
def Row.matchesWord (r : Row) (w : Word) : Bool :=
  (w &&& r.mask == r.pattern) && decide (r.eMin ≤ (expField w).toNat) && decide ((expField w).toNat ≤ r.eMax)
    && r.frac.holds (fracField w)

/-- The row's other form: the range of the magnitude word, and the sign where the mask holds bit 63 (R65). -/
def Row.matchesMagnitude (r : Row) (w : Word) : Bool :=
  decide (r.mMin ≤ (magField w).toNat) && decide ((magField w).toNat ≤ r.mMax)
    && (!r.mask.getLsbD 63 || signField w == r.pattern.getLsbD 63)

/-! ## The decoder -/

/-- The class row of an operand word with its operand fields. "A decoder of the operand is total on any 64 bits" (R67).
The row ENCODE is the undivided operation; a word is decoded to the class row inside it (log 7). -/
def decode (w : Word) : Instr :=
  match classOf w with
  | .nan => .encodeNan (signField w) (fracField w)
  | .pinf => .encodePinf
  | .ninf => .encodeNinf
  | .zero => .encodeZero (signField w)
  | .subnormal => .encodeSubnormal (signField w) (fracField w)
  | .fraction => .encodeFraction (signField w) (expField w) (fracField w)
  | .mixed => .encodeMixed (signField w) (expField w) (fracField w)
  | .clamp => .encodeClamp (signField w) (expField w) (fracField w)

/-- Why a string of bits is no operand word. -/
inductive DecodeReject where
  /-- It has more than 64 bits, or its value does not fit its bits: "There is one operand length (64 bits)" (R76). What
  another length means the spec leaves open (log 19). -/
  | notOneOperandWord
  deriving DecidableEq, Repr

/-- What the decoder makes of a string of bits. -/
inductive Decoded where
  | instr (i : Instr)
  | rejected (why : DecodeReject)
  deriving DecidableEq, Repr

/-- The decoder on `nbits` bits of value `w`, bit 0 the least significant. The spec has one operand length, 64 bits
(R76), and says nothing of a string of another length. DESIGN CHOICE (log 19): a shorter string is the 64-bit word whose
missing upper bits are 0; a longer one, and a value that does not fit its bits, is rejected by name. -/
def decodeBits (nbits w : Nat) : Decoded :=
  if nbits ≤ 64 ∧ w < 2 ^ nbits then .instr (decode (BitVec.ofNat 64 w)) else .rejected .notOneOperandWord

/-- The decoder as the host asks for it. -/
def decodeTableWord (nbits w : Nat) : Option Instr :=
  match decodeBits nbits w with
  | .instr i => some i
  | .rejected _ => none

/-! ## The encoder -/

/-- The operand word of an instruction: its row's fixed fields (R65) and its operand fields, at the places of R60. -/
def encode : Instr → Word
  | .encode w => w
  | .encodeNan s f => packFields s 2047 f
  | .encodePinf => packFields false 2047 0
  | .encodeNinf => packFields true 2047 0
  | .encodeZero s => packFields s 0 0
  | .encodeSubnormal s f => packFields s 0 f
  | .encodeFraction s e f => packFields s e f
  | .encodeMixed s e f => packFields s e f
  | .encodeClamp s e f => packFields s e f

/-- The row of the opcode table an instruction belongs to. -/
def Instr.row : Instr → Row
  | .encode _ => encodeRow
  | .encodeNan _ _ => OperandClass.nan.row
  | .encodePinf => OperandClass.pinf.row
  | .encodeNinf => OperandClass.ninf.row
  | .encodeZero _ => OperandClass.zero.row
  | .encodeSubnormal _ _ => OperandClass.subnormal.row
  | .encodeFraction _ _ _ => OperandClass.fraction.row
  | .encodeMixed _ _ _ => OperandClass.mixed.row
  | .encodeClamp _ _ _ => OperandClass.clamp.row

end Sys2Proof
end

