-- ==== Sys2Proof/Machine/Constants.lean ====
section
/-! DEFINITION. The fixed constants of R5, and the two parameters of R6 that the spec gives a value. -/

namespace Sys2Proof.Machine

/-- OUT_LEN: the number of output digits. -/
def outLen : Nat := 64

/-- EXP_W: digits of the exponent field. -/
def expW : Nat := 11

/-- MAN_W: digits of the mantissa field. -/
def manW : Nat := 52

/-- BIAS: the exponent bias. -/
def bias : Nat := 1023

/-- INT_CAP: the greatest number of integer digits kept. -/
def intCap : Nat := 53

/-- CLAMP_EXP: the exponent field forced when the integer digit count equals INT_CAP. -/
def clampExp : Nat := 2046

/-- NAN_CONST: sign 1, exponent `11111111111`, mantissa 1 and 51 zeros (R73, R111). -/
def nanConst : Digits := true :: (List.replicate 11 true ++ true :: List.replicate 51 false)

/-- PINF_CONST: sign 0, exponent all ones, mantissa all zero (R73, R112). -/
def pinfConst : Digits := false :: (List.replicate 11 true ++ List.replicate 52 false)

/-- NINF_CONST: sign 1, exponent all ones, mantissa all zero (R73, R112). -/
def ninfConst : Digits := true :: (List.replicate 11 true ++ List.replicate 52 false)

/-- CHAR0, the code of the character for digit 0. The spec's D4 and GK3 (log 13). -/
def char0 : BitVec 8 := 0x30

/-- CHAR1, the code of the character for digit 1. The spec's D4 and GK3 (log 13). -/
def char1 : BitVec 8 := 0x31

end Sys2Proof.Machine
end

