-- ==== Sys2Proof/Machine/Digits.lean ====
section
/-! DEFINITION. Numbers and digit sequences (R7, R9), and the two forms of a result (R70, R72). -/

namespace Sys2Proof.Machine

/-- `bitlen(x)`: 0 when `x = 0`, otherwise the `k` with `2^(k-1) <= x < 2^k` (R7). -/
def bitlen (x : Nat) : Nat := if x = 0 then 0 else Nat.log2 x + 1

/-- `zeros(k)`: `k` digits 0 (R9). -/
def zeros (k : Nat) : Digits := List.replicate k false

/-- `bin(k, x)`: `x` in `k` binary digits, most significant first (R9): element `i` is bit `k - i` of `x`. -/
def bin : Nat → Nat → Digits
  | 0, _ => []
  | k + 1, x => x.testBit k :: bin k x

/-- `val(S)`: the number the digits spell, the first digit the most significant (R9). -/
def val : Digits → Nat
  | [] => 0
  | d :: S => d.toNat * 2 ^ S.length + val S

/-- The bit form of a 64-digit sequence: `RESULT[63 - p] = OUTSEQ[p + 1]` (R70). -/
def bitForm (S : Digits) : Word := BitVec.ofNat 64 (val S)

/-- The character code of a digit (R72). -/
def charOf (d : Digit) : BitVec 8 := if d then char1 else char0

/-- The number of digits before the first 1 digit. -/
def leadingZeros : Digits → Nat
  | [] => 0
  | d :: S => if d then 0 else leadingZeros S + 1

/-- The characters of the digits of bits `k - 1` down to 0 of a word, the most significant in the lowest position of the
string, as one number. -/
def charValue (w : Word) : Nat → Nat
  | 0 => 0
  | k + 1 => (charOf (w.getLsbD k)).toNat * 2 ^ (8 * k) + charValue w k

/-- The character view of a result (R72, R45): the character at string position `p` in bits `511 - 8p` to `504 - 8p`. -/
def charView (w : Word) : BitVec 512 := BitVec.ofNat 512 (charValue w outLen)

end Sys2Proof.Machine
end

