-- ==== Sys2Proof/Machine/Operands.lean ====
section
/-! DEFINITION. The value of an operand (R62 to R64), in exact arithmetic (R7).

A magnitude is a natural number that counts units of 2^-1074: every absolute value `a` of a finite operand and every
remainder of the fraction loop is such a multiple (R63, R155), so the arithmetic below is the exact arithmetic of the
rules (log 9). -/

namespace Sys2Proof.Machine

/-- A unit is 2^-1074 (R63): the scale of every magnitude. -/
@[irreducible] def unitBits : Nat := 1074

/-- The value 1, in units of 2^-1074. -/
def magOne : Nat := 2 ^ unitBits

/-- `floor(a)` (R7). -/
def magFloor (a : Nat) : Nat := a / magOne

/-- `a - floor(a)` (R150). -/
def magFraction (a : Nat) : Nat := a % magOne

/-- ZERO_THRESHOLD: 2^-1074, one unit (R6, R156; the spec's GK2, log 12). -/
def zeroThreshold : Nat := 1

/-- The absolute value `a` of a finite operand (R63): `f * 2^-1074` when `e = 0`, `(2^52 + f) * 2^(e - 1075)` when
`1 <= e <= 2046`. It is not defined for `e = 2047`, and no path of ENCODE reads it there (R93, R115; log 18). -/
def absValue (e : BitVec 11) (f : BitVec 52) : Nat :=
  if e = 0 then f.toNat else (2 ^ 52 + f.toNat) * 2 ^ (e.toNat - 1)

/-- The operand is finite: `e <= 2046` (R61). -/
def isFinite (w : Word) : Bool := expField w != 2047

/-- The operand is a NaN: `e = 2047` and `f != 0` (R61). -/
def isNan (w : Word) : Bool := expField w == 2047 && fracField w != 0

/-- The operand "is negative": `s = 1` and it is not a NaN, negative zero included (R64). -/
def isNegative (w : Word) : Bool := signField w && !isNan w

/-- The absolute value of the operand word's fields. -/
def wordAbs (w : Word) : Nat := absValue (expField w) (fracField w)

end Sys2Proof.Machine
end

