-- ==== Sys2Proof/Machine/Flags.lean ====
section
/-! DEFINITION. The block has no status flags, condition codes or sticky flags (R25, R221), so no instruction computes
one. What steers the assembler are transaction-local predicates (R25, R170, R172 to R175), which stand here. -/

namespace Sys2Proof.Machine

/-- `int_empty`: "the integer part is empty" (R170). -/
def intEmpty (n : Nat) : Bool := n == 0

/-- `is_zero`: no integer digit and no fraction digit (R170). -/
def isZero (n : Nat) (FD : Digits) : Bool := n == 0 && FD.length == 0

/-- The condition of the negative force: `exp_raw < 0` (R174). -/
def negativeForce (expRaw : Int) : Bool := decide (expRaw < 0)

/-- The condition of the clamp: the integer digit count equals INT_CAP (R175). -/
def clampForce (n : Nat) : Bool := n == intCap

end Sys2Proof.Machine
end

