-- ==== Sys2Proof/Machine/FractionExpander.lean ====
section
/-! DEFINITION. Stage 4, the fractional-part binary expander (R150 to R162). -/

namespace Sys2Proof.Machine

/-- What FRAC_EXPAND answers: the fraction digits and the shift counter (R151). -/
structure FracPart where
  FD : Digits
  shift : Int
  deriving DecidableEq, Repr

/-- The digit that doubling the remainder emits: `floor(2 * r)` (R151). -/
def fracDigit (r : Nat) : Digit := decide (2 * r ≥ magOne)

/-- The remainder after one iteration: `2 * r - d` (R151). -/
def nextRemainder (r : Nat) : Nat := 2 * r - (fracDigit r).toNat * magOne

/-- The shift counter after one iteration: one lower when the digit is 0 and no 1 has been seen (R151, R153). -/
def nextShift (d seenOne : Digit) (shift : Int) : Int := if d || seenOne then shift else shift - 1

/-- The digit loop of R151, from remainder `r`, with the shift counter and whether a 1 has been seen. The first argument
bounds the number of iterations; at most 1074 are needed (R159, log 11). -/
def fracLoop : Nat → Nat → Int → Bool → FracPart
  | 0, _, shift, _ => ⟨[], shift⟩
  | fuel + 1, r, shift, seenOne =>
    if r ≥ zeroThreshold then
      let rest :=
        fracLoop fuel (nextRemainder r) (nextShift (fracDigit r) seenOne shift) (seenOne || fracDigit r)
      ⟨fracDigit r :: rest.FD, rest.shift⟩
    else ⟨[], shift⟩

/-- The greatest number of iterations of the fraction loop, 1074 (R159, R255). -/
def maxFracDigits : Nat := unitBits

/-- FRAC_EXPAND(r0, n) (R151). "`n` does not influence the digits generated" (R150). -/
def fracExpand (r0 : Nat) (_n : Nat) : FracPart := fracLoop maxFracDigits r0 0 false

/-- `p1 = 1 - shift`: the position in `FD` of its first 1 digit, when there is one (R154). -/
def firstOne (shift : Int) : Nat := (1 - shift).toNat

/-- The window of fraction digits the assembler keeps (R158); the case `r0 = 0` is that of an empty `FD`. -/
def keptDigits (n : Nat) (FD : Digits) (shift : Int) : Digits :=
  if n ≥ 1 then FD.take (53 - n)
  else if FD.length ≠ 0 then (FD.drop (firstOne shift)).take 52
  else []

end Sys2Proof.Machine
end

