-- ==== Sys2Proof/Machine/Assembler.lean ====
section
/-! DEFINITION. Stage 5, the normalizer/exponent assembler `ieee754_binary_assembler` (R170 to R186). -/

namespace Sys2Proof.Machine

/-- `exp_raw` (R171). -/
def expRaw (n : Nat) (shift : Int) : Int :=
  if intEmpty n then bias + shift - 1 else bias + ((n : Int) - 1)

/-- `exp` (R176): the zero force (R173), the negative force (R174) and the clamp (R175), otherwise `exp_raw`. -/
def exponentField (n : Nat) (FD : Digits) (shift : Int) : Nat :=
  if isZero n FD then 0
  else if negativeForce (expRaw n shift) then 0
  else if clampForce n then clampExp
  else (expRaw n shift).toNat

/-- The mantissa digits `M` (R177, R178): the integer digits without the implicit bit, then the kept fraction digits. -/
def mantissaDigits (ID FD : Digits) (shift : Int) : Digits :=
  ID.drop 1 ++ keptDigits ID.length FD shift

/-- ASSEMBLE(sign, ID, FD, shift) (R180): sign, exponent field, mantissa digits, padded on the right with 0 to 64 digits
(R179). -/
def assemble (sign : Digit) (ID FD : Digits) (shift : Int) : Digits :=
  let S := [sign] ++ bin expW (exponentField ID.length FD shift) ++ mantissaDigits ID FD shift
  S ++ zeros (outLen - S.length)

end Sys2Proof.Machine
end

