-- ==== Sys2Proof/Machine/Classifier.lean ====
section
/-! DEFINITION. Stage 1, the special-value classifier (R110 to R116). -/

namespace Sys2Proof.Machine

/-- What the classifier answers (R110). -/
inductive Special where
  | nan
  | pinf
  | ninf
  | finite
  deriving DecidableEq, Repr

/-- CLASSIFY(s, e, f) (R110). Zero is not a classifier case (R113). -/
def classify (s : Digit) (e : BitVec 11) (f : BitVec 52) : Special :=
  if e = 2047 ∧ f ≠ 0 then .nan
  else if e = 2047 ∧ f = 0 ∧ s = false then .pinf
  else if e = 2047 ∧ f = 0 ∧ s = true then .ninf
  else .finite

end Sys2Proof.Machine
end

