-- ==== Sys2Proof/Machine/IntegerExpander.lean ====
section
/-! DEFINITION. Stage 3, the integer-part binary expander (R130 to R139). -/

namespace Sys2Proof.Machine

/-- The digit loop of R131: while `x >= 1` emit `x mod 2` and halve; least significant digit first. The first argument
bounds the number of iterations; the loop runs `bitlen(x)` times (R131, log 11). -/
def intDigitLoop : Nat → Nat → Digits
  | 0, _ => []
  | fuel + 1, x => if x ≥ 1 then (x % 2 == 1) :: intDigitLoop fuel (x / 2) else []

/-- INT_DIGITS(I) (R131): the collected digits, reversed. -/
def intDigits (I : Nat) : Digits := (intDigitLoop (bitlen I) I).reverse

/-- What INT_EXPAND answers: the integer digits kept and their count (R133). -/
structure IntPart where
  ID : Digits
  n : Nat
  deriving DecidableEq, Repr

/-- INT_EXPAND(I) (R133): at most 53 digits kept, the most significant ones, and the count after the cut. -/
def intExpand (I : Nat) : IntPart :=
  let ID := (intDigits I).take intCap
  ⟨ID, ID.length⟩

end Sys2Proof.Machine
end

