-- ==== Sys2Proof/Config.lean ====
section
/-! DEFINITION. The values the spec leaves open (93_implementation_defined.md, part 1), as constants without a body:
no proof can see what they are, so a claim holds whatever they are.

Each takes the index of the clock edge and the words the block could base its choice on, so that every edge may draw
another value and no claim can rest on a value being independent of the data. -/

namespace Sys2Proof.Config

/-- LATENCY of the transaction accepted at an edge (U4, R6, R254): "any finite natural number of clock periods between
acceptance and completion, possibly different for every transaction". Arguments: edge, old OPERAND, old RESULT, accepted
word. Log 5. -/
opaque latency (edge : Nat) (operand result inValue : Word) : Nat

/-- RESULT after an ACCEPT (U2, R91 "its old value may or may not survive"). Arguments: edge, old OPERAND, old RESULT,
accepted word. Log 3. -/
opaque resultAfterAccept (edge : Nat) (operand result inValue : Word) : Word

/-- RESULT after a RESET step (U2, R240). Arguments: edge, old OPERAND, old RESULT, word on `in_value`. Log 3. -/
opaque resultAfterReset (edge : Nat) (operand result inValue : Word) : Word

/-- OPERAND after a RESET step (U2, R240). Arguments: edge, old OPERAND, old RESULT, word on `in_value`. Log 3. -/
opaque operandAfterReset (edge : Nat) (operand result inValue : Word) : Word

/-- RESULT in the state after reset (R33 `unspecified`). Log 2. -/
opaque resultAtReset : Word

/-- OPERAND in the state after reset (R33 `unspecified`). Log 2. -/
opaque operandAtReset : Word

/-- Port `out_bits` while RESULT_VALID = 0 (U1, R27, R246): "any value, possibly different at every clock edge".
Arguments: edge, OPERAND, RESULT. Log 4. -/
opaque outBitsWhileInvalid (edge : Nat) (operand result : Word) : Word

/-- Port `out_chars` while RESULT_VALID = 0 (U1, R27, R246). Arguments: edge, OPERAND, RESULT. Log 4. -/
opaque outCharsWhileInvalid (edge : Nat) (operand result : Word) : BitVec 512

end Sys2Proof.Config
end

