-- ==== Sys2Proof/Machine/State.lean ====
section
/-! DEFINITION. The state of one block: its four registers (R21 to R23, R32), what the host drives on the input ports
(R27), and the model's own fields for what the spec leaves open. The block has no program counter, general register,
flag, control register, memory, mode or exception register (R20, R24, R25, R26, R40, R225, R228), so there is none here. -/

namespace Sys2Proof.Machine

/-- What the host drives on the input ports at one clock edge (R27). -/
structure PortInputs where
  rst : Bool
  inValid : Bool
  inValue : Word
  deriving DecidableEq, Repr

/-- A host that does nothing: no reset, no offer. DESIGN CHOICE (log 1): the host of a run whose listed inputs are used
up. The word on `in_value` is then read by no rule (R245). -/
def PortInputs.idle : PortInputs := ⟨false, false, 0⟩

/-- The state of the block between two clock edges. -/
structure State where
  /-- OPERAND, R21. -/
  operand : Word
  /-- RESULT, R22. -/
  result : Word
  /-- BUSY, R23. -/
  busy : Bool
  /-- RESULT_VALID, R23. -/
  resultValid : Bool
  /-- What the host drives at the coming edges, the next edge first (R27, R101). Log 1. -/
  inputs : List PortInputs
  /-- The model's own: how many more edges the transaction in progress is held before its COMPLETE edge. Log 5. -/
  waitEdges : Nat
  /-- The model's own: the LATENCY of the coming transactions, next first. Log 5. -/
  latencies : List Nat
  /-- The model's own: the number of edges seen, the index of the free values. Log 6. -/
  edge : Nat
  deriving DecidableEq, Repr

/-- The state after reset (R33, R242): BUSY and RESULT_VALID 0, RESULT and OPERAND unspecified (log 2), no input yet. -/
def State.reset : State where
  operand := Config.operandAtReset
  result := Config.resultAtReset
  busy := false
  resultValid := false
  inputs := []
  waitEdges := 0
  latencies := []
  edge := 0

/-- The faults of the block: none. "Nothing in this block is treated as `fault` or `stuck`: ENCODE is total and raises
nothing" (93_implementation_defined.md; R67, R182, R220, R234). -/
inductive Fault where
  deriving DecidableEq, Repr

/-- The refusals of the block. No meaning of this model raises one. -/
inductive Refusal where
  /-- An instruction without a meaning, raised by its arm of `exec` alone; safe, since the machine then stops. No arm
  raises it: every row of the opcode table has its meaning. -/
  | notModelled (mnemonic : String)
  deriving DecidableEq, Repr

/-- What a step of this machine answers. -/
abbrev StepOutcome := Host.Outcome State Fault Refusal

end Sys2Proof.Machine
end

