-- ==== Sys2Proof/Machine/Ops.lean ====
section
/-! DEFINITION. The named operations over the registers and the ports: the effects of RESET (R240), ACCEPT (R91),
COMPLETE (R92) and HOLD (R97), the choice among them, and the output ports (R27).

There is no memory operation (R40) and no operation that takes an exception or returns from one: the block has neither
(R220, R225, R226). -/

namespace Sys2Proof.Machine

/-! ## The input side -/

/-- What the host drives at the coming edge (R27); idle when nothing is listed (log 1). -/
def State.pins (s : State) : PortInputs := s.inputs.headD PortInputs.idle

/-- The edge passes: its inputs are used up, and the free values move on (log 1, log 6). No register changes. -/
def State.tick (s : State) : State := { s with inputs := s.inputs.tail, edge := s.edge + 1 }

/-- LATENCY of a transaction accepted now: the next listed draw, else the free value (R254, U4, log 5). -/
def State.nextLatency (s : State) : Nat :=
  match s.latencies with
  | [] => Config.latency s.edge s.operand s.result s.pins.inValue
  | k :: _ => k

/-! ## The four effects -/

/-- The effect of COMPLETE (R92): RESULT takes the bit form of the digits, RESULT_VALID <- 1, BUSY <- 0. -/
def State.complete (s : State) (out : Digits) : State :=
  { s with result := bitForm out, resultValid := true, busy := false }

/-- The effect of ACCEPT (R91): OPERAND <- in_value, BUSY <- 1, RESULT_VALID <- 0, RESULT unspecified (log 3). A COMPLETE
`LATENCY` edges later leaves `LATENCY - 1` edges to hold (R92, log 5). -/
def State.accept (s : State) : State :=
  { s.tick with
    operand := s.pins.inValue
    result := Config.resultAfterAccept s.edge s.operand s.result s.pins.inValue
    busy := true
    resultValid := false
    waitEdges := s.nextLatency - 1
    latencies := s.latencies.tail }

/-- The effect of RESET (R240): BUSY <- 0, RESULT_VALID <- 0, RESULT and OPERAND unspecified (log 3). The transaction in
progress, if any, is discarded (R241). -/
def State.takeReset (s : State) : State :=
  { s.tick with
    operand := Config.operandAfterReset s.edge s.operand s.result s.pins.inValue
    result := Config.resultAfterReset s.edge s.operand s.result s.pins.inValue
    busy := false
    resultValid := false
    waitEdges := 0 }

/-- The effect of HOLD (R97): "no architectural register changes"; the wait for COMPLETE gets one edge shorter (log 5). -/
def State.hold (s : State) : State := { s.tick with waitEdges := s.waitEdges - 1 }

/-! ## Which step an edge takes -/

/-- The steps of the wrapper (40_encode_operation.md section 2). -/
inductive EdgeStep where
  | reset
  | accept
  /-- ACCEPT and COMPLETE merged into one edge: LATENCY = 0 (R92). -/
  | acceptAndComplete
  | complete
  | hold
  deriving DecidableEq, Repr

/-- The step the coming edge takes: RESET first (R240); while BUSY, COMPLETE at the edge the implementation chose (R92),
HOLD before it; else ACCEPT of an offer (R91), HOLD without one (R97). -/
def State.edgeStep (s : State) : EdgeStep :=
  if s.pins.rst then .reset
  else if s.busy then if s.waitEdges = 0 then .complete else .hold
  else if s.pins.inValid then if s.nextLatency = 0 then .acceptAndComplete else .accept
  else .hold

/-! ## The output ports (R27) -/

/-- `in_ready = NOT BUSY`. -/
def State.inReady (s : State) : Bool := !s.busy

/-- `out_valid = RESULT_VALID`. -/
def State.outValid (s : State) : Bool := s.resultValid

/-- `out_bits`: RESULT while RESULT_VALID = 1, otherwise unspecified (R27, R99, R246, log 4). -/
def State.outBits (s : State) : Word :=
  if s.resultValid then s.result else Config.outBitsWhileInvalid s.edge s.operand s.result

/-- `out_chars`: the character view of RESULT while RESULT_VALID = 1, otherwise unspecified (R27, R72, log 4). -/
def State.outChars (s : State) : BitVec 512 :=
  if s.resultValid then charView s.result else Config.outCharsWhileInvalid s.edge s.operand s.result

/-! ## A word as the transaction in progress -/

/-- The listed inputs with `rst` released at the coming edge. -/
def releaseReset : List PortInputs → List PortInputs
  | [] => []
  | p :: ps => { p with rst := false } :: ps

/-- The state with `w` as the operand in progress, at its COMPLETE edge: what the ACCEPT of `w` (R91) leaves once the
edges to hold are over (log 17). -/
def State.withOperandInProgress (s : State) (w : Word) : State :=
  { s with operand := w, busy := true, resultValid := false, waitEdges := 0, inputs := releaseReset s.inputs }

end Sys2Proof.Machine
end

