-- ==== Sys2Proof/Machine/SignExtractor.lean ====
section
/-! DEFINITION. Stage 2, the sign extractor (R120 to R124). The stage passes the absolute value on (R121). -/

namespace Sys2Proof.Machine

/-- SIGN(s) (R120): the test is on the sign bit, so negative zero gives 1. -/
def signDigit (s : Digit) : Digit := s

end Sys2Proof.Machine
end

