-- ==== Sys2Proof/Machine/Encode.lean ====
section
/-! DEFINITION. ENCODE as a function (R90) and the meaning of every row of the opcode table: the COMPLETE step's effect
(R92) with the digits the row's rules give. No row raises anything or writes a flag (R220, R25). -/

namespace Sys2Proof.Machine

/-- The general path (R90, R93): stages 2 to 5 on the sign bit and the absolute value of a finite operand. -/
def generalPath (s : Digit) (a : Nat) : Digits :=
  let ip := intExpand (magFloor a)
  let fp := fracExpand (magFraction a) ip.n
  assemble (signDigit s) ip.ID fp.FD fp.shift

/-- ENCODE(w) (R90): OUTSEQ, 64 digits. -/
def encodeSeq (w : Word) : Digits :=
  match classify (signField w) (expField w) (fracField w) with
  | .nan => nanConst
  | .pinf => pinfConst
  | .ninf => ninfConst
  | .finite => generalPath (signField w) (wordAbs w)

/-- The bit form of ENCODE(w) (R70, R92). -/
def encodeBits (w : Word) : Word := bitForm (encodeSeq w)

/-! ## The rows -/

/-- ENCODE (R90). -/
def execEncode (w : Word) (st : State) : StepOutcome := .next (st.complete (encodeSeq w))

/-- ENCODE.NAN (R111): "none of `s`, `f` influences the result". -/
def execEncodeNan (_s : Digit) (_f : BitVec 52) (st : State) : StepOutcome := .next (st.complete nanConst)

/-- ENCODE.PINF (R112). -/
def execEncodePinf (st : State) : StepOutcome := .next (st.complete pinfConst)

/-- ENCODE.NINF (R112). -/
def execEncodeNinf (st : State) : StepOutcome := .next (st.complete ninfConst)

/-- ENCODE.ZERO: the general path (R113, R173). -/
def execEncodeZero (s : Digit) (st : State) : StepOutcome := .next (st.complete (generalPath s (absValue 0 0)))

/-- ENCODE.SUBNORMAL: the general path (R174, R181). -/
def execEncodeSubnormal (s : Digit) (f : BitVec 52) (st : State) : StepOutcome :=
  .next (st.complete (generalPath s (absValue 0 f)))

/-- ENCODE.FRACTION: the general path with an empty integer part (R171, R178, R180). -/
def execEncodeFraction (s : Digit) (e : BitVec 11) (f : BitVec 52) (st : State) : StepOutcome :=
  .next (st.complete (generalPath s (absValue e f)))

/-- ENCODE.MIXED: the general path with 1 to 52 integer digits (R171, R177, R178, R180). -/
def execEncodeMixed (s : Digit) (e : BitVec 11) (f : BitVec 52) (st : State) : StepOutcome :=
  .next (st.complete (generalPath s (absValue e f)))

/-- ENCODE.CLAMP: the general path with 53 integer digits after the cut (R133, R175). -/
def execEncodeClamp (s : Digit) (e : BitVec 11) (f : BitVec 52) (st : State) : StepOutcome :=
  .next (st.complete (generalPath s (absValue e f)))

end Sys2Proof.Machine
end

