-- ==== Sys2Proof/Machine/Dispatch.lean ====
section
/-! DEFINITION. One arm per row of the opcode table. -/

namespace Sys2Proof.Machine

def exec (i : Instr) (s : State) : Host.Outcome State Fault Refusal :=
  match i with
  | .encode w => Sys2Proof.Machine.execEncode w s
  | .encodeNan sg f => Sys2Proof.Machine.execEncodeNan sg f s
  | .encodePinf => Sys2Proof.Machine.execEncodePinf s
  | .encodeNinf => Sys2Proof.Machine.execEncodeNinf s
  | .encodeZero sg => Sys2Proof.Machine.execEncodeZero sg s
  | .encodeSubnormal sg f => Sys2Proof.Machine.execEncodeSubnormal sg f s
  | .encodeFraction sg e f => Sys2Proof.Machine.execEncodeFraction sg e f s
  | .encodeMixed sg e f => Sys2Proof.Machine.execEncodeMixed sg e f s
  | .encodeClamp sg e f => Sys2Proof.Machine.execEncodeClamp sg e f s

end Sys2Proof.Machine
end

