-- ==== Sys2Proof/Machine/Step.lean ====
section
/-! DEFINITION. One clock edge. The choice and the effects are those of `Machine/Ops.lean`; the operand word of the
transaction that completes is decoded and its row run (R75, R92). -/

namespace Sys2Proof.Machine

/-- One clock edge of the block: exactly one of RESET, ACCEPT, COMPLETE, HOLD (40_encode_operation.md section 2). -/
def step (s : State) : Host.Outcome State Fault Refusal :=
  match s.edgeStep with
  | .reset => .next s.takeReset
  | .accept => .next s.accept
  | .acceptAndComplete => exec (decode s.pins.inValue) s.accept
  | .complete => exec (decode s.operand) s.tick
  | .hold => .next s.hold

/-- `s` with the operand word of `nbits` bits and value `w` where the next step takes its operand from: OPERAND of a
transaction at its COMPLETE edge (log 17). A word shorter than 64 bits is filled with 0 and a longer one cut to its low
64 bits (DESIGN CHOICE, log 19). -/
def State.withFetchWord (s : State) (nbits w : Nat) : State :=
  s.withOperandInProgress (BitVec.ofNat 64 (w % 2 ^ nbits))

end Sys2Proof.Machine
end

