-- ==== Sys2Proof/Machine/ClosedForm.lean ====
section
/-! DEFINITION. The closed form of ENCODE (46_closed_form.md, R205) and the standard decoding of a word's value: cross
checks to be proved equal to the staged definition, never its definition (R213). No meaning calls this file. -/

namespace Sys2Proof.Machine

/-- The mantissa field of a subnormal's result: `(f * 2^(53 - k)) mod 2^52` with `k = bitlen(f)` (R181, R202). -/
def subnormalMantissa (f : BitVec 52) : BitVec 52 := BitVec.ofNat 52 (f.toNat * 2 ^ (53 - bitlen f.toNat))

/-- CLOSED(w) (R205). -/
def closedForm (w : Word) : Word :=
  if expField w = 2047 then if fracField w ≠ 0 then 0xFFF8000000000000 else w
  else if expField w = 0 then
    if fracField w = 0 then w else packFields (signField w) 0 (subnormalMantissa (fracField w))
  else if (expField w).toNat ≤ 1074 then w
  else packFields (signField w) 0x7FE (fracField w)

end Sys2Proof.Machine
end

