-- ==== Sys2Proof/Machine/Instances.lean ====
section
/-! DEFINITION. Several instances of the block (R6 N_INSTANCES, R35, R231): a list of states of any length, each stepped
on its own clock edges with its own inputs. They share nothing and have no identifiers; the index below is the model's
way to say which instance takes an edge (log 16). -/

namespace Sys2Proof.Machine

/-- One clock edge of the instance at index `k`; an index that names no instance changes nothing. -/
def stepInstance (k : Nat) (blocks : List State) : Host.Outcome (List State) Fault Refusal :=
  match blocks[k]? with
  | none => .next blocks
  | some s =>
    match step s with
    | .next t => .next (blocks.set k t)
    | .fault r => .fault r
    | .refused r => .refused r

end Sys2Proof.Machine
end

