-- ==== Sys2Proof/Machine/Transaction.lean ====
section
/-! DEFINITION. The transaction-local values of R28, each a function of the operand word alone (R29). They exist only
inside a transaction and are no part of State; this file gathers them under their names. -/

namespace Sys2Proof.Machine

/-- The values R28 names, for a finite operand (the general path; R93, R115). `p1` is absent when `r0 = 0` (R154). -/
structure Locals where
  s : Digit
  e : Nat
  f : Nat
  cls : OperandClass
  sign : Digit
  a : Nat
  I : Nat
  n0 : Nat
  ID : Digits
  n : Nat
  r0 : Nat
  FD : Digits
  L : Nat
  shift : Int
  p1 : Option Nat
  exp_raw : Int
  exp : Nat
  M : Digits
  OUTSEQ : Digits
  deriving DecidableEq, Repr

/-- The transaction-local values of a finite operand word. -/
def localsOf (w : Word) : Locals :=
  let a := wordAbs w
  let ip := intExpand (magFloor a)
  let fp := fracExpand (magFraction a) ip.n
  { s := signField w
    e := (expField w).toNat
    f := (fracField w).toNat
    cls := classOf w
    sign := signDigit (signField w)
    a := a
    I := magFloor a
    n0 := bitlen (magFloor a)
    ID := ip.ID
    n := ip.n
    r0 := magFraction a
    FD := fp.FD
    L := fp.FD.length
    shift := fp.shift
    p1 := if magFraction a = 0 then none else some (firstOne fp.shift)
    exp_raw := expRaw ip.n fp.shift
    exp := exponentField ip.n fp.FD fp.shift
    M := mantissaDigits ip.ID fp.FD fp.shift
    OUTSEQ := assemble (signDigit (signField w)) ip.ID fp.FD fp.shift }

/-- The running remainder `r` of the fraction loop after `i` iterations from `r0` (R151, R152). -/
def remainderAfter (r0 : Nat) : Nat → Nat
  | 0 => r0
  | i + 1 => nextRemainder (remainderAfter r0 i)

end Sys2Proof.Machine
end

