-- ==== Sys2Proof/Safety.lean ====
section
/-! DEFINITION. What counts as a safe state and a finished run, in the spec's terms (R36, R100, R234). -/

namespace Sys2Proof.Machine

/-- The wrapper's invariant (R36): BUSY and RESULT_VALID are never both 1, and a valid RESULT is the bit form of ENCODE
of the last accepted operand, which OPERAND still holds (R21: only ACCEPT and RESET write it). -/
def State.Inv (s : State) : Prop :=
  ¬(s.busy = true ∧ s.resultValid = true) ∧ (s.resultValid = true → s.result = encodeBits s.operand)

/-- No edge in the list asserts `rst`. -/
def noReset (ps : List PortInputs) : Prop := ∀ p ∈ ps, p.rst = false

/-- No edge in the list offers an operand. -/
def noOffer (ps : List PortInputs) : Prop := ∀ p ∈ ps, p.inValid = false

/-- A run is over (R100): not BUSY and the host offers nothing more. -/
def State.Final (s : State) : Prop := s.busy = false ∧ noOffer s.inputs

/-- The four registers of two states agree. -/
def State.SameRegisters (s t : State) : Prop :=
  s.operand = t.operand ∧ s.result = t.result ∧ s.busy = t.busy ∧ s.resultValid = t.resultValid

/-- `k` clock edges (the host's `Host.Core.run` on this machine). -/
def runEdges : Nat → State → StepOutcome
  | 0, s => .next s
  | k + 1, s =>
    match step s with
    | .next t => runEdges k t
    | .fault r => .fault r
    | .refused r => .refused r

/-- The operand word the coming edge accepts, if it accepts one (R91). -/
def State.acceptedNow (s : State) : Option Word :=
  match s.edgeStep with
  | .accept => some s.pins.inValue
  | .acceptAndComplete => some s.pins.inValue
  | .reset => none
  | .complete => none
  | .hold => none

/-- The operand word of the most recent ACCEPT among the next `k` edges; `w` is that of the edges before. -/
def lastAccepted : Nat → State → Option Word → Option Word
  | 0, _, w => w
  | k + 1, s, w =>
    match step s with
    | .next t => lastAccepted k t (s.acceptedNow.or w)
    | .fault _ => w
    | .refused _ => w

/-- The host offers `w` to an idle block, and `rst` stays 0 up to and including the COMPLETE edge of that transaction,
LATENCY edges after the ACCEPT (R92). -/
def State.OffersToIdle (s : State) (w : Word) : Prop :=
  s.busy = false ∧ s.pins.inValid = true ∧ s.pins.inValue = w ∧ noReset (s.inputs.take (s.nextLatency + 1))

end Sys2Proof.Machine
end

