-- ==== Sys2Proof/Certificates/Slice0/Obligations.lean ====
section
/-! DEFINITION. The statements for the provers. Each says in its docstring which rule of `spec/` it formalises; a clause
that rests on a choice of the model names the log entry. -/

open Sys2Proof Sys2Proof.Machine

/-! ## Encodings -/

/-- R60, R65, R66: decoding the word of a well-formed class-row instruction gives it back, with every operand field at
every value its class admits. -/
def Obligations.DecodeOfEncodeIsTheInstruction : Prop :=
  ∀ i : Instr, i.wellFormed = true → i.isClassRow = true → decode (encode i) = i

/-- R67: every 64-bit word decodes, to a well-formed instruction of a class row, and encoding it gives the word back. -/
def Obligations.EveryWordDecodesAndReencodes : Prop :=
  ∀ w : Word, (decode w).wellFormed = true ∧ (decode w).isClassRow = true ∧ encode (decode w) = w

/-- R65, R66, R75: a word matches a class row, by mask, match and fields, and equally by its range of `m = w[62:0]`,
exactly when it is of that class; the row ENCODE matches every word. -/
def Obligations.RowsSelectTheOperandClass : Prop :=
  ∀ w : Word, encodeRow.matchesWord w = true ∧
    ∀ c : OperandClass, (c.row.matchesWord w = true ↔ classOf w = c) ∧ (c.row.matchesMagnitude w = true ↔ classOf w = c)

/-- R60, R65: words of each class written out bit by bit decode to the instruction they stand for. -/
def Obligations.WrittenWordsDecode : Prop :=
  decode 0b1111111111110000000000000000000000000000000000000000000000000001 = .encodeNan true 1 ∧
  decode 0b0111111111110000000000000000000000000000000000000000000000000000 = .encodePinf ∧
  decode 0b1111111111110000000000000000000000000000000000000000000000000000 = .encodeNinf ∧
  decode 0b1000000000000000000000000000000000000000000000000000000000000000 = .encodeZero true ∧
  decode 0b0000000000000000000000000000000000000000000000000000000000000101 = .encodeSubnormal false 5 ∧
  decode 0b0011111111001001100110011001100110011001100110011001100110011010 =
    .encodeFraction false 1020 0x999999999999A ∧
  decode 0b1100000001101111111010000010100011110101110000101000111101011100 =
    .encodeMixed true 1030 0xFE828F5C28F5C ∧
  decode 0b0111111000110111111001000011110010001000000000000111010110011100 =
    .encodeClamp false 2019 0x7E43C8800759C

/-- R75, R92: at the COMPLETE edge a step runs the instruction OPERAND decodes to, after the edge's inputs are used up;
at the merged edge of LATENCY 0 it runs the one `in_value` decodes to, after the ACCEPT. -/
def Obligations.StepRunsTheDecodedOperand : Prop :=
  ∀ s : State, s.pins.rst = false →
    (s.busy = true → s.waitEdges = 0 → step s = exec (decode s.operand) s.tick) ∧
    (s.busy = false → s.pins.inValid = true → s.nextLatency = 0 →
      step s = exec (decode s.pins.inValue) s.accept)

/-- The model's own way to place an operand word (log 17): the very next step runs the instruction it decodes to. -/
def Obligations.FetchedWordRunsNext : Prop :=
  ∀ (s : State) (w : Word), decodeTableWord 64 w.toNat = some (decode w) ∧
    step (s.withFetchWord 64 w.toNat) = exec (decode w) (s.withFetchWord 64 w.toNat).tick

/-- R75, R93: the class rows divide the row ENCODE and keep its meaning: in every state, ENCODE on a word does what the
class row the word decodes to does. -/
def Obligations.EncodeRowActsAsItsClassRow : Prop :=
  ∀ (w : Word) (s : State), exec (.encode w) s = exec (decode w) s

/-! ## What each row completes with

The statements of this part hold from every state. A COMPLETE step is taken while BUSY = 1 only (R92); that a row has the
same effect in a state that is not busy is the model's choice (log 8). -/

/-- R90, R92, R205: ENCODE completes in every state, with CLOSED(w) in RESULT; nothing but RESULT, RESULT_VALID and BUSY
changes. States that are not busy are the model's choice (log 8). -/
def Obligations.EncodeCompletesWithClosedForm : Prop :=
  ∀ (w : Word) (s : State),
    exec (.encode w) s = .next { s with result := closedForm w, resultValid := true, busy := false }

/-- R90, R205: the digits of ENCODE(w) are the 64 binary digits of CLOSED(w). -/
def Obligations.EncodeDigitsSpellClosedForm : Prop :=
  ∀ w : Word, encodeSeq w = bin 64 (closedForm w).toNat

/-- R111, with the COMPLETE effect of R92: every NaN word, of either sign and any payload, gives NAN_CONST; the result is
the operand only for `0xFFF8000000000000`. States that are not busy are the model's choice (log 8). -/
def Obligations.NanRowGivesNanConst : Prop :=
  (∀ (sg : Digit) (f : BitVec 52) (s : State), f ≠ 0 → exec (.encodeNan sg f) s =
    .next { s with result := 0xFFF8000000000000, resultValid := true, busy := false }) ∧
  ∀ w : Word, isNan w = true →
    encodeSeq w = true :: (List.replicate 11 true ++ true :: List.replicate 51 false) ∧
    encodeBits w = 0xFFF8000000000000 ∧ (encodeBits w = w ↔ w = 0xFFF8000000000000)

/-- R112: the two infinities give their constants, which are the operand words themselves, and each class has that one
word (this last clause is the spec's own inference from R65 and R73). -/
def Obligations.InfinityRowsGiveTheirWords : Prop :=
  (∀ s : State, exec .encodePinf s =
    .next { s with result := 0x7FF0000000000000, resultValid := true, busy := false }) ∧
  (∀ s : State, exec .encodeNinf s =
    .next { s with result := 0xFFF0000000000000, resultValid := true, busy := false }) ∧
  ∀ w : Word,
    (classOf w = .pinf → w = 0x7FF0000000000000 ∧ encodeSeq w = false :: (List.replicate 11 true ++ List.replicate 52 false) ∧
      encodeBits w = w) ∧
    (classOf w = .ninf → w = 0xFFF0000000000000 ∧ encodeSeq w = true :: (List.replicate 11 true ++ List.replicate 52 false) ∧
      encodeBits w = w)

/-- R113, R173, R201: ENCODE.ZERO goes through the general path and gives an all-zero result except for the sign bit. -/
def Obligations.ZeroRowGivesSignedZero : Prop :=
  ∀ (sg : Digit) (s : State), exec (.encodeZero sg) s =
    .next { s with result := packFields sg 0 0, resultValid := true, busy := false }

/-- R174, R181, R202: ENCODE.SUBNORMAL gives exponent field 0 and the mantissa `(f * 2^(53 - bitlen f)) mod 2^52`. -/
def Obligations.SubnormalRowLeftAlignsMantissa : Prop :=
  ∀ (sg : Digit) (f : BitVec 52) (s : State), f ≠ 0 → exec (.encodeSubnormal sg f) s =
    .next { s with
      result := packFields sg 0 (BitVec.ofNat 52 (f.toNat * 2 ^ (53 - bitlen f.toNat)))
      resultValid := true
      busy := false }

/-- R203: ENCODE.FRACTION gives the operand word itself. -/
def Obligations.FractionRowGivesItsWord : Prop :=
  ∀ (sg : Digit) (e : BitVec 11) (f : BitVec 52) (s : State), 1 ≤ e.toNat → e.toNat ≤ 1022 →
    exec (.encodeFraction sg e f) s = .next { s with result := packFields sg e f, resultValid := true, busy := false }

/-- R203: ENCODE.MIXED gives the operand word itself. -/
def Obligations.MixedRowGivesItsWord : Prop :=
  ∀ (sg : Digit) (e : BitVec 11) (f : BitVec 52) (s : State), 1023 ≤ e.toNat → e.toNat ≤ 1074 →
    exec (.encodeMixed sg e f) s = .next { s with result := packFields sg e f, resultValid := true, busy := false }

/-- R175, R204: ENCODE.CLAMP gives exponent field 2046 and keeps sign and mantissa field. -/
def Obligations.ClampRowForcesExponent2046 : Prop :=
  ∀ (sg : Digit) (e : BitVec 11) (f : BitVec 52) (s : State), 1075 ≤ e.toNat → e.toNat ≤ 2046 →
    exec (.encodeClamp sg e f) s = .next { s with result := packFields sg 2046 f, resultValid := true, busy := false }

/-- R21, R92: the frame of every row: OPERAND, the listed inputs and the model's own fields keep their values, BUSY
falls, RESULT_VALID rises, and RESULT depends on the instruction alone (R96). -/
def Obligations.RowsWriteOnlyResultBusyValid : Prop :=
  ∀ i : Instr, ∃ r : Word, ∀ s t : State, exec i s = .next t →
    t.result = r ∧ t.resultValid = true ∧ t.busy = false ∧ t.operand = s.operand ∧ t.inputs = s.inputs ∧
    t.waitEdges = s.waitEdges ∧ t.latencies = s.latencies ∧ t.edge = s.edge

/-! ## The operand's value and the stages -/

/-- R63: the absolute value, as a rational number: `f * 2^-1074` when `e = 0`, `(2^52 + f) * 2^(e - 1075)` when
`1 <= e <= 2046` (the first line is the spec's GK1, log 10). -/
def Obligations.AbsValueIsTheOperandsMagnitude : Prop :=
  (∀ f : BitVec 52, (absValue 0 f : ℚ) / (magOne : ℚ) = (f.toNat : ℚ) * (2 : ℚ) ^ (-1074 : ℤ)) ∧
  ∀ (e : BitVec 11) (f : BitVec 52), 1 ≤ e.toNat → e.toNat ≤ 2046 →
    (absValue e f : ℚ) / (magOne : ℚ) = ((2 : ℚ) ^ 52 + (f.toNat : ℚ)) * (2 : ℚ) ^ ((e.toNat : ℤ) - 1075)

/-- R131, R132, R134, R135: INT_DIGITS spells `I` without leading zeros, in `bitlen(I)` digits; 0 gives the empty
sequence; the loop ends by its own test, so a longer bound on it changes nothing (log 11). -/
def Obligations.IntDigitsAreTheNumeral : Prop :=
  ∀ I : Nat, val (intDigits I) = I ∧ (intDigits I).length = bitlen I ∧
    (I ≠ 0 → (intDigits I).head? = some true) ∧ (I = 0 → intDigits I = []) ∧
    ∀ k : Nat, (intDigitLoop (bitlen I + k) I).reverse = intDigits I

/-- R133: INT_EXPAND keeps the 53 most significant digits and counts them after the cut; the count is 53 exactly when the
numeral has 53 digits or more, for an operand exactly when `a >= 2^52`. -/
def Obligations.IntExpandKeepsTheTop53 : Prop :=
  ∀ I : Nat, (intExpand I).ID = (intDigits I).take 53 ∧ (intExpand I).n = min (bitlen I) 53 ∧
    ((intExpand I).n = 53 ↔ 53 ≤ bitlen I) ∧
    ∀ a : Nat, magFloor a = I → ((intExpand I).n = 53 ↔ 2 ^ 52 * magOne ≤ a)

/-- R136, R137: the integer digits in terms of the operand fields, and the cut of a finite operand removes only 0. -/
def Obligations.IntegerDigitsInOperandFields : Prop :=
  ∀ (e : BitVec 11) (f : BitVec 52),
    (e.toNat ≤ 1022 → intExpand (magFloor (absValue e f)) = ⟨[], 0⟩) ∧
    (1023 ≤ e.toNat → e.toNat ≤ 1074 → intExpand (magFloor (absValue e f)) =
      ⟨bin (e.toNat - 1022) ((2 ^ 52 + f.toNat) / 2 ^ (53 - (e.toNat - 1022))), e.toNat - 1022⟩) ∧
    (1075 ≤ e.toNat → e.toNat ≤ 2046 → intExpand (magFloor (absValue e f)) = ⟨true :: bin 52 f.toNat, 53⟩) ∧
    (e.toNat ≤ 2046 → ∀ d ∈ (intDigits (magFloor (absValue e f))).drop 53, d = false)

/-- R152: the fraction digits are the binary expansion of `r0`: `r0 = val(FD) / 2^L`, digit `i` is
`floor(2^i * r0) mod 2`, the last digit is 1. -/
def Obligations.FractionDigitsAreTheExpansion : Prop :=
  ∀ r0 n : Nat, r0 < magOne →
    val (fracExpand r0 n).FD * magOne = r0 * 2 ^ (fracExpand r0 n).FD.length ∧
    (∀ i, i < (fracExpand r0 n).FD.length →
      (fracExpand r0 n).FD[i]? = some (decide (r0 * 2 ^ (i + 1) / magOne % 2 = 1))) ∧
    ((fracExpand r0 n).FD ≠ [] → (fracExpand r0 n).FD.getLast? = some true)

/-- R152, R156, R159: the remainder after `i` iterations is `2^i * r0 - floor(2^i * r0)`; the fraction loop ends by its
own test (remainder 0, and not before), after at most 1074 iterations, so a longer bound on it changes nothing (log 11). -/
def Obligations.FractionLoopEndsAtZeroRemainder : Prop :=
  ∀ r0 n : Nat, r0 < magOne →
    (∀ i, remainderAfter r0 i = r0 * 2 ^ i % magOne) ∧
    remainderAfter r0 (fracExpand r0 n).FD.length = 0 ∧
    (∀ i, i < (fracExpand r0 n).FD.length → remainderAfter r0 i ≠ 0) ∧
    (fracExpand r0 n).FD.length ≤ 1074 ∧
    ∀ k, fracLoop (maxFracDigits + k) r0 0 false = fracExpand r0 n

/-- R153: `shift` is minus the number of 0 digits of `FD` before its first 1 digit, 0 when `FD` is empty or starts with 1;
one iteration lowers it by 1 exactly when it emits a 0 and no 1 has been emitted. -/
def Obligations.ShiftCountsLeadingZeros : Prop :=
  (∀ r0 n : Nat, (fracExpand r0 n).shift = -(leadingZeros (fracExpand r0 n).FD : Int)) ∧
  ∀ (d seenOne : Digit) (shift : Int),
    nextShift d seenOne shift = if d = false ∧ seenOne = false then shift - 1 else shift

/-- R154: when `r0` is not 0, `p1 = 1 - shift` is the position in `FD` of its first 1 digit, and
`2^(-p1) <= r0 < 2^(-p1 + 1)`. -/
def Obligations.FirstOneLocatesTheRemainder : Prop :=
  ∀ r0 n : Nat, r0 < magOne → r0 ≠ 0 →
    1 ≤ firstOne (fracExpand r0 n).shift ∧ (firstOne (fracExpand r0 n).shift : Int) = 1 - (fracExpand r0 n).shift ∧
    (fracExpand r0 n).FD[firstOne (fracExpand r0 n).shift - 1]? = some true ∧
    (∀ j, j < firstOne (fracExpand r0 n).shift - 1 → (fracExpand r0 n).FD[j]? = some false) ∧
    magOne ≤ r0 * 2 ^ firstOne (fracExpand r0 n).shift ∧
    r0 * 2 ^ (firstOne (fracExpand r0 n).shift - 1) < magOne

/-- R171, R174, R176: the exponent of a finite operand by class: 0, 0, `e`, `e`, 2046; the raw exponent is negative
exactly for subnormals with `bitlen(f) <= 51`. -/
def Obligations.ExponentByOperandClass : Prop :=
  ∀ w : Word, isFinite w = true →
    (localsOf w).exp = (match classOf w with
      | .nan => 2047
      | .pinf => 2047
      | .ninf => 2047
      | .zero => 0
      | .subnormal => 0
      | .fraction => (expField w).toNat
      | .mixed => (expField w).toNat
      | .clamp => 2046) ∧
    ((localsOf w).exp_raw < 0 ↔ classOf w = .subnormal ∧ bitlen (fracField w).toNat ≤ 51)

/-- R173: the condition of the zero force holds exactly when `a = 0`, and then the exponent field is 0 where it would have
been 1022; an operand with `1/2 <= a < 1` has `n = 0` and `shift = 0` too and is not forced. -/
def Obligations.ZeroForceExactlyForZero : Prop :=
  ∀ w : Word, isFinite w = true →
    (isZero (localsOf w).n (localsOf w).FD = true ↔ wordAbs w = 0) ∧
    (wordAbs w = 0 → (localsOf w).exp = 0 ∧ (localsOf w).exp_raw = 1022) ∧
    (magOne ≤ 2 * wordAbs w → wordAbs w < magOne → (localsOf w).n = 0 ∧ (localsOf w).shift = 0 ∧ (localsOf w).exp = 1022)

/-- R175: the clamp: `n = 53` exactly when `a >= 2^52`, that is for class CLAMP; then `exp_raw = 1075`, `exp = 2046`, the
result has the operand's own exponent field only when `e = 2046`, and it decodes to `2^(2046 - e)` times the operand:
the operand's sign and that multiple of its absolute value. -/
def Obligations.ClampReplacesTheExponent : Prop :=
  ∀ w : Word, isFinite w = true →
    ((localsOf w).n = 53 ↔ 2 ^ 52 * magOne ≤ wordAbs w) ∧ ((localsOf w).n = 53 ↔ classOf w = .clamp) ∧
    ((localsOf w).n = 53 → (localsOf w).exp_raw = 1075 ∧ (localsOf w).exp = 2046 ∧ expField (encodeBits w) = 2046 ∧
      (expField (encodeBits w) = expField w ↔ (expField w).toNat = 2046) ∧ signField (encodeBits w) = signField w ∧
      wordAbs (encodeBits w) = wordAbs w * 2 ^ (2046 - (expField w).toNat))

/-- R183: no 1 digit of a finite operand lies outside the mantissa window, so truncation loses nothing. -/
def Obligations.NoOneDigitOutsideTheWindow : Prop :=
  ∀ w : Word, isFinite w = true →
    (1 ≤ (localsOf w).n → ∀ d ∈ (localsOf w).FD.drop (53 - (localsOf w).n), d = false) ∧
    ((localsOf w).n = 0 → ∀ d ∈ (localsOf w).FD.drop (firstOne (localsOf w).shift + 52), d = false)

/-- R28: the transaction-local values of a finite operand stay in their ranges, and OUTSEQ is ENCODE of the operand. A
magnitude is a number of units, `magOne` of them the value 1 (log 9); `r` is the remainder after any number of iterations. -/
def Obligations.TransactionLocalsStayInRange : Prop :=
  ∀ w : Word, isFinite w = true →
    (localsOf w).e ≤ 2047 ∧ (localsOf w).f ≤ 2 ^ 52 - 1 ∧
    ((localsOf w).a = 0 ∨ 1 ≤ (localsOf w).a ∧ (localsOf w).a ≤ (2 ^ 53 - 1) * 2 ^ 971 * magOne) ∧
    (localsOf w).I ≤ (2 ^ 53 - 1) * 2 ^ 971 ∧ (localsOf w).r0 < magOne ∧
    (∀ i, remainderAfter (localsOf w).r0 i < magOne) ∧ (localsOf w).L = (localsOf w).FD.length ∧
    (localsOf w).ID.length ≤ 53 ∧ (localsOf w).FD.length ≤ 1074 ∧ (localsOf w).OUTSEQ.length = 64 ∧
    ((localsOf w).p1 = none ↔ (localsOf w).r0 = 0) ∧ (localsOf w).n0 ≤ 1024 ∧ (localsOf w).n ≤ 53 ∧ (localsOf w).n = (localsOf w).ID.length ∧ (localsOf w).L ≤ 1074 ∧
    -1073 ≤ (localsOf w).shift ∧ (localsOf w).shift ≤ 0 ∧ -51 ≤ (localsOf w).exp_raw ∧ (localsOf w).exp_raw ≤ 1075 ∧
    (localsOf w).exp ≤ 2046 ∧ (localsOf w).M.length ≤ 52 ∧ (∀ p, (localsOf w).p1 = some p → 1 ≤ p ∧ p ≤ 1074) ∧
    (localsOf w).OUTSEQ = encodeSeq w

/-! ## The result -/

/-- R94: ENCODE is defined for every word and gives 64 digits. -/
def Obligations.EncodeGives64Digits : Prop :=
  ∀ w : Word, (encodeSeq w).length = 64

/-- R70: the bit form: RESULT bit `63 - p` is the digit at position `p`, RESULT is the number the digits spell, and for a
finite operand its fields are the sign digit, `exp` and the mantissa digits padded with 0. -/
def Obligations.ResultBitsAreTheDigits : Prop :=
  ∀ w : Word, (∀ p, p < 64 → (encodeSeq w)[p]? = some ((encodeBits w).getLsbD (63 - p))) ∧
    (encodeBits w).toNat = val (encodeSeq w) ∧
    (isFinite w = true → signField (encodeBits w) = (localsOf w).sign ∧
      (expField (encodeBits w)).toNat = (localsOf w).exp ∧
      (fracField (encodeBits w)).toNat = val ((localsOf w).M ++ zeros (52 - (localsOf w).M.length)))

/-- R123: the first digit of the result of a finite operand is the sign digit, which is the operand's bit 63 (R120),
whatever force applies; negative zero gives the sign digit 1 and 63 digits 0. -/
def Obligations.SignDigitComesFirst : Prop :=
  (∀ w : Word, isFinite w = true →
    (encodeSeq w).head? = some (localsOf w).sign ∧ (localsOf w).sign = signField w) ∧
  encodeSeq 0x8000000000000000 = true :: zeros 63

/-- R122, R209: for every operand that is no NaN, changing its sign bit changes the sign bit of the result and nothing
else; for a NaN it changes nothing. -/
def Obligations.SignSymmetry : Prop :=
  ∀ w : Word,
    (isNan w = false → encodeBits (w ^^^ 0x8000000000000000) = encodeBits w ^^^ 0x8000000000000000) ∧
    (isNan w = true → encodeBits (w ^^^ 0x8000000000000000) = encodeBits w)

/-- R206: RESULT differs from the operand word exactly for the NaNs other than `0xFFF8000000000000`, the subnormals, and
the operands with `1075 <= e <= 2045`. -/
def Obligations.ResultDiffersFromOperandExactly : Prop :=
  ∀ w : Word, encodeBits w ≠ w ↔
    (isNan w = true ∧ w ≠ 0xFFF8000000000000) ∨ classOf w = .subnormal ∨
    (1075 ≤ (expField w).toNat ∧ (expField w).toNat ≤ 2045)

/-- R208: the round trip: the result decodes to the operand's sign and value for `1 <= e <= 1074` and for `e = 2046`, and
to another value for `1075 <= e <= 2045`. -/
def Obligations.RoundTripOnItsTrueDomain : Prop :=
  ∀ w : Word,
    ((1 ≤ (expField w).toNat ∧ (expField w).toNat ≤ 1074) ∨ (expField w).toNat = 2046 →
      isFinite (encodeBits w) = true ∧ signField (encodeBits w) = signField w ∧ wordAbs (encodeBits w) = wordAbs w) ∧
    (1075 ≤ (expField w).toNat → (expField w).toNat ≤ 2045 → wordAbs (encodeBits w) ≠ wordAbs w)

/-- R74: the exponent field of the result is 0 for ZERO and SUBNORMAL only, 2047 for NAN, PINF and NINF only, and 2046
for every operand of class CLAMP. -/
def Obligations.ReservedExponentPatterns : Prop :=
  ∀ w : Word,
    (expField (encodeBits w) = 0 ↔ classOf w = .zero ∨ classOf w = .subnormal) ∧
    (expField (encodeBits w) = 2047 ↔ classOf w = .nan ∨ classOf w = .pinf ∨ classOf w = .ninf) ∧
    (classOf w = .clamp → expField (encodeBits w) = 2046)

/-- R211: collisions: all NaNs; operands of class CLAMP with equal sign and mantissa field; a subnormal power of two and
the zero of its sign; subnormals `f` and `2f`. -/
def Obligations.EncodeIsNotInjective : Prop :=
  (∀ v w : Word, isNan v = true → isNan w = true → encodeBits v = encodeBits w) ∧
  (∀ v w : Word, classOf v = .clamp → classOf w = .clamp → signField v = signField w → fracField v = fracField w →
    encodeBits v = encodeBits w) ∧
  (∀ (sg : Digit) (k : Nat), k < 52 →
    encodeBits (packFields sg 0 (BitVec.ofNat 52 (2 ^ k))) = encodeBits (packFields sg 0 0)) ∧
  (∀ (sg : Digit) (f : Nat), f ≠ 0 → 2 * f < 2 ^ 52 →
    encodeBits (packFields sg 0 (BitVec.ofNat 52 (2 * f))) = encodeBits (packFields sg 0 (BitVec.ofNat 52 f)))

/-- R212: the set of results. -/
def Obligations.ResultsLieInTheStatedSet : Prop :=
  ∀ w : Word, encodeBits w = 0xFFF8000000000000 ∨ (expField (encodeBits w)).toNat ≤ 1074 ∨
    expField (encodeBits w) = 2046 ∨ encodeBits w = 0x7FF0000000000000 ∨ encodeBits w = 0xFFF0000000000000

/-- R72: the character at position `p` of `out_chars`, in bits `511 - 8p` to `504 - 8p`, is `0x30` plus the digit (the
codes are the spec's D4, log 13). -/
def Obligations.CharacterViewOfTheResult : Prop :=
  ∀ (s : State) (w : Word) (p : Nat), s.resultValid = true → s.result = encodeBits w → p < 64 →
    ∃ d, (encodeSeq w)[p]? = some d ∧ s.outChars.extractLsb' (504 - 8 * p) 8 = BitVec.ofNat 8 (0x30 + d.toNat)

/-! ## The steps of the wrapper -/

/-- R240: RESET, from every state: it has priority, clears BUSY and RESULT_VALID, and ignores `in_valid`: whatever is or is
not offered at that edge, BUSY, RESULT_VALID and the inputs still to come are the same. Of RESULT and OPERAND after it
nothing is said (log 3). -/
def Obligations.ResetClearsBusyAndValid : Prop :=
  (∀ s : State, s.pins.rst = true → ∃ t, step s = .next t ∧ t.busy = false ∧ t.resultValid = false ∧
    t.inReady = true ∧ t.outValid = false) ∧
  ∀ (s : State) (p q : PortInputs) (ps : List PortInputs), p.rst = true → q.rst = true →
    ∃ t u, step { s with inputs := p :: ps } = .next t ∧ step { s with inputs := q :: ps } = .next u ∧
      t.busy = u.busy ∧ t.resultValid = u.resultValid ∧ t.inputs = ps ∧ u.inputs = ps

/-- R91: ACCEPT, whenever `rst = 0`, BUSY = 0 and `in_valid = 1` (with LATENCY at least 1): OPERAND takes `in_value`,
BUSY rises, RESULT_VALID falls; every word is accepted; an offer while BUSY is no ACCEPT. -/
def Obligations.AcceptLatchesTheOperand : Prop :=
  (∀ s : State, s.pins.rst = false → s.inReady = true → s.pins.inValid = true → s.nextLatency ≠ 0 →
    ∃ t, step s = .next t ∧ t.operand = s.pins.inValue ∧ t.busy = true ∧ t.resultValid = false) ∧
  ∀ s t : State, s.busy = true → step s = .next t → s.acceptedNow = none ∧ (t.busy = true → t.operand = s.operand)

/-- R92: COMPLETE: RESULT takes the bit form of ENCODE(OPERAND), RESULT_VALID rises, BUSY falls; with LATENCY 0 ACCEPT and
COMPLETE are one edge; COMPLETE is always taken after finitely many edges unless RESET intervenes. -/
def Obligations.CompleteDeliversTheResult : Prop :=
  (∀ s : State, s.pins.rst = false → s.busy = true → s.waitEdges = 0 →
    ∃ t, step s = .next t ∧ t.result = encodeBits s.operand ∧ t.resultValid = true ∧ t.busy = false) ∧
  (∀ s : State, s.pins.rst = false → s.busy = false → s.pins.inValid = true → s.nextLatency = 0 →
    ∃ t, step s = .next t ∧ t.operand = s.pins.inValue ∧ t.result = encodeBits s.pins.inValue ∧
      t.resultValid = true ∧ t.busy = false) ∧
  ∀ s : State, s.busy = true → noReset (s.inputs.take (s.waitEdges + 1)) →
    ∃ t, runEdges (s.waitEdges + 1) s = .next t ∧ t.result = encodeBits s.operand ∧ t.resultValid = true ∧ t.busy = false

/-- R97, R248: HOLD changes no architectural register: idle without an offer, or busy before the COMPLETE edge; and what
is offered at a busy edge is neither accepted nor remembered: the whole next state is the same for every offer. -/
def Obligations.HoldAndIgnoredOffers : Prop :=
  (∀ s : State, s.pins.rst = false → (s.busy = false ∧ s.pins.inValid = false ∨ s.busy = true ∧ s.waitEdges ≠ 0) →
    ∃ t, step s = .next t ∧ s.SameRegisters t) ∧
  ∀ (s : State) (p q : PortInputs) (ps : List PortInputs), s.busy = true → p.rst = false → q.rst = false →
    step { s with inputs := p :: ps } = step { s with inputs := q :: ps }

/-- R241: RESET during a transaction ends it without a result: over however many edges the host offers nothing afterwards,
no COMPLETE is taken and no result becomes valid. -/
def Obligations.ResetDiscardsTheTransaction : Prop :=
  ∀ s : State, s.busy = true → s.pins.rst = true → ∃ t, step s = .next t ∧ t.busy = false ∧ t.resultValid = false ∧
    ∀ (k : Nat) (u : State), k ≤ t.inputs.length → noOffer (t.inputs.take k) → runEdges k t = .next u →
      u.busy = false ∧ u.resultValid = false

/-- R67, R220, R234: no operand and no input makes the block fault or refuse: every row and every edge answers a next
state. -/
def Obligations.NothingEverRaises : Prop :=
  (∀ (i : Instr) (s : State), ∃ t, exec i s = .next t) ∧ (∀ s : State, ∃ t, step s = .next t)

/-- R23, R36: the wrapper's invariant is kept by every step, from every state that has it. -/
def Obligations.StepKeepsTheWrapperInvariant : Prop :=
  ∀ s t : State, s.Inv → step s = .next t → t.Inv

/-- R33, R36: the state after reset is idle, has no valid result, and has the wrapper's invariant. -/
def Obligations.ResetStateIsIdleAndInvariant : Prop :=
  State.reset.busy = false ∧ State.reset.resultValid = false ∧ State.reset.Inv

/-- R34, R36: from any idle state without a valid result, with whatever inputs and latencies: whenever RESULT_VALID = 1,
RESULT is the bit form of ENCODE of the operand of the most recent ACCEPT. -/
def Obligations.ValidResultIsOfTheLastAccepted : Prop :=
  ∀ (s t : State) (k : Nat), s.busy = false → s.resultValid = false → runEdges k s = .next t → t.resultValid = true →
    ∃ w, lastAccepted k s none = some w ∧ t.result = encodeBits w ∧ t.outBits = encodeBits w

/-- R92, R254, R255: a word offered to an idle block is encoded: COMPLETE comes LATENCY edges after the ACCEPT, BUSY and no
valid result in between, whatever the host does meanwhile but reset. LATENCY is any number (log 5). -/
def Obligations.OfferedWordIsEncoded : Prop :=
  ∀ (s : State) (w : Word), s.OffersToIdle w →
    (∃ t, runEdges (s.nextLatency + 1) s = .next t ∧ t.result = encodeBits w ∧ t.operand = w ∧
      t.resultValid = true ∧ t.busy = false) ∧
    ∀ k, 1 ≤ k → k ≤ s.nextLatency → ∃ u, runEdges k s = .next u ∧ u.busy = true ∧ u.resultValid = false ∧ u.operand = w

/-- R31, R96, R244, R250: purity: the same word offered to any two idle states, whatever their registers, histories and
latencies, gives the same result and the same outputs. -/
def Obligations.ResultDependsOnTheOperandAlone : Prop :=
  ∀ (s t : State) (w : Word), s.OffersToIdle w → t.OffersToIdle w →
    ∃ u v, runEdges (s.nextLatency + 1) s = .next u ∧ runEdges (t.nextLatency + 1) t = .next v ∧
      u.result = v.result ∧ u.outBits = v.outBits ∧ u.outChars = v.outChars

/-- R99: while RESULT_VALID = 1, the outputs show RESULT, and go on showing that value over any number of edges without an
offer and without RESET. The idle state is meant: the two registers are never both 1 (`State.Inv`). -/
def Obligations.ResultStaysUntilAcceptOrReset : Prop :=
  ∀ (s : State) (k : Nat), s.resultValid = true → s.busy = false → k ≤ s.inputs.length →
    noReset (s.inputs.take k) → noOffer (s.inputs.take k) →
    ∃ t, runEdges k s = .next t ∧ t.outValid = true ∧ t.inReady = true ∧ t.outBits = s.result ∧
      t.outChars = charView s.result

/-- R100: once BUSY = 0 and the host offers nothing more (and does not reset), the state is final: no register changes at
any later edge. That nothing is driven past the listed inputs is the model's choice (log 1). -/
def Obligations.FinishedRunIsFinal : Prop :=
  ∀ (s : State) (k : Nat), s.Final → noReset s.inputs → ∃ t, runEdges k s = .next t ∧ s.SameRegisters t

/-- R35: instances share nothing: an edge of one instance gives it its own next state, leaves every other instance as it
was, and edges of two different instances commute. -/
def Obligations.InstancesShareNothing : Prop :=
  (∀ (blocks : List State) (k : Nat) (s : State), blocks[k]? = some s →
    ∃ t after, step s = .next t ∧ stepInstance k blocks = .next after ∧ after.length = blocks.length ∧
      after[k]? = some t ∧ ∀ j, j ≠ k → after[j]? = blocks[j]?) ∧
  ∀ (blocks : List State) (j k : Nat), j ≠ k → ∃ a b c, stepInstance j blocks = .next a ∧ stepInstance k a = .next c ∧
    stepInstance k blocks = .next b ∧ stepInstance j b = .next c
end

