-- ==== Sys2Proof/Laws/Fields.lean ====
section
/-! SUPPORT. The operand fields of a word (R60): their numbers, and that packing and reading them are inverse. -/

namespace Sys2Proof

theorem toNat_packFields (s : Digit) (e : BitVec 11) (f : BitVec 52) :
    (packFields s e f).toNat = s.toNat * 2 ^ 63 + e.toNat * 2 ^ 52 + f.toNat := by
  have he := e.isLt
  have hf := f.isLt
  simp only [packFields, BitVec.toNat_append, BitVec.toNat_ofBool]
  rw [← Nat.shiftLeft_add_eq_or_of_lt he, ← Nat.shiftLeft_add_eq_or_of_lt hf]
  simp only [Nat.shiftLeft_eq]
  omega

theorem toNat_expField (w : Word) : (expField w).toNat = w.toNat / 2 ^ 52 % 2 ^ 11 := by
  simp [expField, BitVec.extractLsb'_toNat, Nat.shiftRight_eq_div_pow]

theorem toNat_fracField (w : Word) : (fracField w).toNat = w.toNat % 2 ^ 52 := by
  simp [fracField, BitVec.extractLsb'_toNat]

theorem toNat_magField (w : Word) : (magField w).toNat = w.toNat % 2 ^ 63 := by
  simp [magField, BitVec.extractLsb'_toNat]

theorem toNat_signField (w : Word) : (signField w).toNat = w.toNat / 2 ^ 63 := by
  have h := w.isLt
  rw [signField, BitVec.getLsbD, Nat.testBit_eq_decide_div_mod_eq]
  rw [Nat.mod_eq_of_lt (by omega)]
  rcases (by omega : w.toNat / 2 ^ 63 = 0 ∨ w.toNat / 2 ^ 63 = 1) with h' | h' <;> rw [h'] <;> rfl

theorem toNat_fields (w : Word) :
    w.toNat = (signField w).toNat * 2 ^ 63 + (expField w).toNat * 2 ^ 52 + (fracField w).toNat := by
  rw [toNat_signField, toNat_expField, toNat_fracField]
  have := w.isLt
  omega

@[simp] theorem packFields_fields (w : Word) : packFields (signField w) (expField w) (fracField w) = w := by
  apply BitVec.eq_of_toNat_eq
  rw [toNat_packFields, ← toNat_fields]

@[simp] theorem signField_packFields (s : Digit) (e : BitVec 11) (f : BitVec 52) : signField (packFields s e f) = s := by
  have h : (signField (packFields s e f)).toNat = s.toNat := by
    rw [toNat_signField, toNat_packFields]
    have he := e.isLt
    have hf := f.isLt
    omega
  revert h
  cases signField (packFields s e f) <;> cases s <;> simp

@[simp] theorem expField_packFields (s : Digit) (e : BitVec 11) (f : BitVec 52) : expField (packFields s e f) = e := by
  apply BitVec.eq_of_toNat_eq
  rw [toNat_expField, toNat_packFields]
  have he := e.isLt
  have hf := f.isLt
  omega

@[simp] theorem fracField_packFields (s : Digit) (e : BitVec 11) (f : BitVec 52) : fracField (packFields s e f) = f := by
  apply BitVec.eq_of_toNat_eq
  rw [toNat_fracField, toNat_packFields]
  have he := e.isLt
  have hf := f.isLt
  omega

end Sys2Proof
end

