-- ==== Sys2Proof/Laws/Classes.lean ====
section
/-! SUPPORT. The operand classes of R65 as ranges of the operand fields (R66), and the magnitude word by fields. -/

namespace Sys2Proof

theorem expField_eq_2047 {e : BitVec 11} : e = 2047 ↔ e.toNat = 2047 :=
  ⟨by rintro rfl; rfl, fun h => BitVec.eq_of_toNat_eq (by simpa using h)⟩

theorem eq_zero_iff_toNat {n : Nat} {x : BitVec n} : x = 0 ↔ x.toNat = 0 :=
  ⟨by rintro rfl; simp, fun h => BitVec.eq_of_toNat_eq (by simpa using h)⟩

/-- The class of a word by the numbers of its fields. -/
theorem classOf_eq (w : Word) : classOf w =
    if (expField w).toNat = 2047 then
      if (fracField w).toNat ≠ 0 then .nan else if signField w then .ninf else .pinf
    else if (expField w).toNat = 0 then
      if (fracField w).toNat = 0 then .zero else .subnormal
    else if (expField w).toNat ≤ 1022 then .fraction
    else if (expField w).toNat ≤ 1074 then .mixed
    else .clamp := by
  simp only [classOf, expField_eq_2047, ne_eq, eq_zero_iff_toNat]

/-- Each class is one range of the fields (R65); the ranges are disjoint and cover every word (R66). -/
theorem classOf_iff (w : Word) (k : OperandClass) : classOf w = k ↔
    match k with
    | .nan => (expField w).toNat = 2047 ∧ (fracField w).toNat ≠ 0
    | .pinf => (expField w).toNat = 2047 ∧ (fracField w).toNat = 0 ∧ signField w = false
    | .ninf => (expField w).toNat = 2047 ∧ (fracField w).toNat = 0 ∧ signField w = true
    | .zero => (expField w).toNat = 0 ∧ (fracField w).toNat = 0
    | .subnormal => (expField w).toNat = 0 ∧ (fracField w).toNat ≠ 0
    | .fraction => 1 ≤ (expField w).toNat ∧ (expField w).toNat ≤ 1022
    | .mixed => 1023 ≤ (expField w).toNat ∧ (expField w).toNat ≤ 1074
    | .clamp => 1075 ≤ (expField w).toNat ∧ (expField w).toNat ≤ 2046 := by
  have hlt := (expField w).isLt
  rw [classOf_eq]
  generalize (expField w).toNat = e at *
  generalize (fracField w).toNat = f at *
  cases signField w <;> cases k <;> simp <;> split_ifs <;> simp_all <;> omega

theorem toNat_magField_fields (w : Word) :
    (magField w).toNat = (expField w).toNat * 2 ^ 52 + (fracField w).toNat := by
  have hw := toNat_fields w
  have he := (expField w).isLt
  have hf := (fracField w).isLt
  rw [toNat_magField, hw]
  cases signField w <;> simp <;> omega

end Sys2Proof
end

