-- ==== Sys2Proof/Laws/Digits.lean ====
section
/-! SUPPORT. Digit sequences (R9) and `bitlen` (R7): lengths, windows, values. -/

namespace Sys2Proof.Machine

@[simp] theorem length_bin (k x : Nat) : (bin k x).length = k := by
  induction k with
  | zero => rfl
  | succ k ih => simp [bin, ih]

@[simp] theorem length_zeros (k : Nat) : (zeros k).length = k := by simp [zeros]

theorem getElem?_bin (k x p : Nat) (h : p < k) : (bin k x)[p]? = some (x.testBit (k - 1 - p)) := by
  induction k generalizing p with
  | zero => omega
  | succ k ih =>
    rw [bin]
    cases p with
    | zero => simp
    | succ p => rw [List.getElem?_cons_succ, ih p (by omega)]; congr 2; omega

theorem bin_add (j k x : Nat) : bin (j + k) x = bin j (x / 2 ^ k) ++ bin k x := by
  induction j with
  | zero => simp [bin]
  | succ j ih =>
    rw [Nat.add_right_comm, bin, ih, bin, Nat.testBit_div_two_pow, List.cons_append]

theorem bin_mod (k x : Nat) {j : Nat} (h : k ≤ j) : bin k (x % 2 ^ j) = bin k x := by
  induction k with
  | zero => rfl
  | succ k ih => simp [bin, ih (by omega), Nat.testBit_mod_two_pow, show k < j by omega]

theorem bin_zero (k : Nat) : bin k 0 = zeros k := by
  induction k with
  | zero => rfl
  | succ k ih => simp [bin, ih, zeros, List.replicate_succ]

theorem take_bin {j k : Nat} (x : Nat) (h : j ≤ k) : (bin k x).take j = bin j (x / 2 ^ (k - j)) := by
  obtain ⟨m, rfl⟩ := Nat.exists_eq_add_of_le h
  rw [bin_add, Nat.add_sub_cancel_left, List.take_left' (by simp)]

theorem drop_bin (j k x : Nat) : (bin k x).drop j = bin (k - j) x := by
  by_cases h : j ≤ k
  · obtain ⟨m, rfl⟩ := Nat.exists_eq_add_of_le h
    rw [bin_add, List.drop_left' (by simp), Nat.add_sub_cancel_left]
  · rw [List.drop_of_length_le (by simp; omega), Nat.sub_eq_zero_of_le (by omega)]; rfl

theorem bin_append_zeros (j k x : Nat) : bin j x ++ zeros k = bin (j + k) (x * 2 ^ k) := by
  rw [bin_add, Nat.mul_div_cancel _ (by positivity), ← bin_mod k (x * 2 ^ k) le_rfl, Nat.mul_mod_left, bin_zero]

theorem val_bin (k x : Nat) : val (bin k x) = x % 2 ^ k := by
  induction k with
  | zero => simp [bin, val, Nat.mod_one]
  | succ k ih =>
    rw [bin, val, ih, length_bin, Nat.mod_pow_succ, Nat.testBit_eq_decide_div_mod_eq]
    rcases Nat.mod_two_eq_zero_or_one (x / 2 ^ k) with h | h <;> simp [h, Nat.add_comm]

theorem val_lt (S : Digits) : val S < 2 ^ S.length := by
  induction S with
  | nil => simp [val]
  | cons d S ih =>
    rw [val, List.length_cons, Nat.pow_succ]
    cases d <;> simp <;> omega

theorem val_append (S T : Digits) : val (S ++ T) = val S * 2 ^ T.length + val T := by
  induction S with
  | nil => simp [val]
  | cons d S ih =>
    rw [List.cons_append, val, ih, val, List.length_append, Nat.pow_add]; ring

theorem bin_val (S : Digits) : bin S.length (val S) = S := by
  induction S with
  | nil => rfl
  | cons d S ih =>
    have h := val_lt S
    have hm : (d.toNat * 2 ^ S.length + val S) % 2 ^ S.length = val S := by
      rw [Nat.mul_add_mod_self_right, Nat.mod_eq_of_lt h]
    rw [List.length_cons, bin, val]
    congr 1
    · have : (d.toNat * 2 ^ S.length + val S) / 2 ^ S.length = d.toNat := by
        rw [Nat.add_comm, Nat.add_mul_div_right _ _ (by positivity), Nat.div_eq_of_lt h, Nat.zero_add]
      rw [Nat.testBit_eq_decide_div_mod_eq, this]; cases d <;> simp
    · rw [← bin_mod _ _ le_rfl, hm, ih]

theorem bitlen_bounds {x : Nat} (h : x ≠ 0) : 2 ^ (bitlen x - 1) ≤ x ∧ x < 2 ^ bitlen x := by
  rw [bitlen, if_neg h, Nat.add_sub_cancel]
  exact ⟨Nat.log2_self_le h, Nat.lt_log2_self⟩

theorem lt_two_pow_bitlen (x : Nat) : x < 2 ^ bitlen x := by
  by_cases h : x = 0
  · simp [h, bitlen]
  · exact (bitlen_bounds h).2

theorem bitlen_eq {x k : Nat} (hk : 0 < k) (h1 : 2 ^ (k - 1) ≤ x) (h2 : x < 2 ^ k) : bitlen x = k := by
  have h0 : x ≠ 0 := by have : 0 < 2 ^ (k - 1) := by positivity
                        omega
  have : x.log2 = k - 1 := (Nat.log2_eq_iff h0).2 ⟨h1, by rwa [Nat.sub_add_cancel hk]⟩
  rw [bitlen, if_neg h0, this, Nat.sub_add_cancel hk]

theorem bitlen_ge {x k : Nat} : k + 1 ≤ bitlen x ↔ 2 ^ k ≤ x := by
  constructor
  · intro h
    have h0 : x ≠ 0 := by rintro rfl; simp [bitlen] at h
    exact Nat.le_trans (Nat.pow_le_pow_right (by norm_num) (by omega)) (bitlen_bounds h0).1
  · intro h
    by_contra hk
    have hx := lt_two_pow_bitlen x
    have hp : 2 ^ bitlen x ≤ 2 ^ k := Nat.pow_le_pow_right (by norm_num) (by omega)
    omega

theorem bitlen_half {x : Nat} (h : x ≠ 0) : bitlen x = bitlen (x / 2) + 1 := by
  by_cases h1 : x / 2 = 0
  · have : x = 1 := by omega
    subst this; decide
  · obtain ⟨h2, h3⟩ := bitlen_bounds h1
    have hp : 0 < bitlen (x / 2) := by
      by_contra hc
      rw [Nat.eq_zero_of_not_pos hc] at h3; omega
    apply bitlen_eq (by omega)
    · have : 2 ^ (bitlen (x / 2) + 1 - 1) = 2 * 2 ^ (bitlen (x / 2) - 1) := by
        rw [← Nat.pow_succ']; congr 1; omega
      omega
    · rw [Nat.pow_succ]; omega

theorem take_padded (j k : Nat) (S : Digits) (h : j ≤ S.length + k) :
    S.take j ++ zeros (j - (S.take j).length) = (S ++ zeros k).take j := by
  rw [List.take_append, List.length_take]
  congr 1
  simp only [zeros, List.take_replicate]
  congr 1; omega

theorem bin_one_cons {k x : Nat} (h1 : 2 ^ k ≤ x) (h2 : x < 2 ^ (k + 1)) : bin (k + 1) x = true :: bin k x := by
  have : x.testBit k = true := by
    have hq : x / 2 ^ k = 1 := Nat.div_eq_of_lt_le (by omega) (by rw [Nat.pow_succ] at h2; omega)
    rw [Nat.testBit_eq_decide_div_mod_eq, hq]; rfl
  rw [bin, this]

theorem drop_one_bin (k x : Nat) : (bin k x).drop 1 = bin (k - 1) x := drop_bin 1 k x

theorem leadingZeros_append {S : Digits} (h : true ∈ S) (T : Digits) : leadingZeros (S ++ T) = leadingZeros S := by
  induction S with
  | nil => simp at h
  | cons d S ih =>
    cases d
    · simp only [List.cons_append, leadingZeros, Bool.false_eq_true, if_false]
      rw [ih (by simpa using h)]
    · simp [leadingZeros]

theorem leadingZeros_bin {x k : Nat} (h0 : x ≠ 0) (h : x < 2 ^ k) : leadingZeros (bin k x) = k - bitlen x := by
  induction k with
  | zero => simp at h; omega
  | succ k ih =>
    by_cases hk : x < 2 ^ k
    · have hle : bitlen x ≤ k := by
        by_contra hc
        have := (bitlen_bounds h0).1
        have : 2 ^ k ≤ 2 ^ (bitlen x - 1) := Nat.pow_le_pow_right (by norm_num) (by omega)
        omega
      rw [bin, Nat.testBit_lt_two_pow hk, leadingZeros]
      simp only [Bool.false_eq_true, if_false, ih hk]
      omega
    · have : bitlen x = k + 1 := bitlen_eq (by omega) (by rw [Nat.add_sub_cancel]; omega) h
      rw [bin_one_cons (by omega) h, leadingZeros, if_pos rfl, this, Nat.sub_self]

theorem leadingZeros_lt {S : Digits} (h : true ∈ S) : leadingZeros S < S.length := by
  induction S with
  | nil => simp at h
  | cons d S ih =>
    cases d
    · simp only [leadingZeros, Bool.false_eq_true, if_false, List.length_cons]
      have := ih (by simpa using h)
      omega
    · simp [leadingZeros]

theorem val_eq_zero_of_no_one {S : Digits} (h : true ∉ S) : val S = 0 := by
  induction S with
  | nil => rfl
  | cons d S ih =>
    cases d
    · simp only [val, Bool.toNat_false, Nat.zero_mul, Nat.zero_add]; exact ih (by simpa using h)
    · simp at h

theorem val_zeros (k : Nat) : val (zeros k) = 0 := val_eq_zero_of_no_one (by simp [zeros])

/-- A sign digit, an 11-digit numeral and a 52-digit numeral spell the word with these fields (R69, R70). -/
theorem bitForm_fields (s : Digit) (e f : Nat) :
    bitForm (s :: (bin 11 e ++ bin 52 f)) = packFields s (BitVec.ofNat 11 e) (BitVec.ofNat 52 f) := by
  apply BitVec.eq_of_toNat_eq
  rw [toNat_packFields, bitForm, BitVec.toNat_ofNat, BitVec.toNat_ofNat, BitVec.toNat_ofNat, val, val_append, val_bin, val_bin]
  simp only [List.length_append, length_bin]
  have := Nat.mod_lt e (show 2 ^ 11 > 0 by norm_num)
  have := Nat.mod_lt f (show 2 ^ 52 > 0 by norm_num)
  cases s <;> simp <;> omega

end Sys2Proof.Machine
end

