-- ==== Sys2Proof/Laws/State.lean ====
section
/-! SUPPORT. One lemma per field per named update of State, so that no proof unfolds a record update. -/

namespace Sys2Proof.Machine

variable (s : State)

/-! ## tick -/

@[simp] theorem State.tick_operand : s.tick.operand = s.operand := rfl
@[simp] theorem State.tick_result : s.tick.result = s.result := rfl
@[simp] theorem State.tick_busy : s.tick.busy = s.busy := rfl
@[simp] theorem State.tick_resultValid : s.tick.resultValid = s.resultValid := rfl
@[simp] theorem State.tick_inputs : s.tick.inputs = s.inputs.tail := rfl
@[simp] theorem State.tick_waitEdges : s.tick.waitEdges = s.waitEdges := rfl
@[simp] theorem State.tick_latencies : s.tick.latencies = s.latencies := rfl
@[simp] theorem State.tick_edge : s.tick.edge = s.edge + 1 := rfl

/-! ## complete -/

@[simp] theorem State.complete_operand (out : Digits) : (s.complete out).operand = s.operand := rfl
@[simp] theorem State.complete_result (out : Digits) : (s.complete out).result = bitForm out := rfl
@[simp] theorem State.complete_busy (out : Digits) : (s.complete out).busy = false := rfl
@[simp] theorem State.complete_resultValid (out : Digits) : (s.complete out).resultValid = true := rfl
@[simp] theorem State.complete_inputs (out : Digits) : (s.complete out).inputs = s.inputs := rfl
@[simp] theorem State.complete_waitEdges (out : Digits) : (s.complete out).waitEdges = s.waitEdges := rfl
@[simp] theorem State.complete_latencies (out : Digits) : (s.complete out).latencies = s.latencies := rfl
@[simp] theorem State.complete_edge (out : Digits) : (s.complete out).edge = s.edge := rfl

/-! ## accept -/

@[simp] theorem State.accept_operand : s.accept.operand = s.pins.inValue := rfl
@[simp] theorem State.accept_result : s.accept.result = Config.resultAfterAccept s.edge s.operand s.result s.pins.inValue := rfl
@[simp] theorem State.accept_busy : s.accept.busy = true := rfl
@[simp] theorem State.accept_resultValid : s.accept.resultValid = false := rfl
@[simp] theorem State.accept_inputs : s.accept.inputs = s.inputs.tail := rfl
@[simp] theorem State.accept_waitEdges : s.accept.waitEdges = s.nextLatency - 1 := rfl
@[simp] theorem State.accept_latencies : s.accept.latencies = s.latencies.tail := rfl
@[simp] theorem State.accept_edge : s.accept.edge = s.edge + 1 := rfl

/-! ## takeReset -/

@[simp] theorem State.takeReset_operand : s.takeReset.operand = Config.operandAfterReset s.edge s.operand s.result s.pins.inValue := rfl
@[simp] theorem State.takeReset_result : s.takeReset.result = Config.resultAfterReset s.edge s.operand s.result s.pins.inValue := rfl
@[simp] theorem State.takeReset_busy : s.takeReset.busy = false := rfl
@[simp] theorem State.takeReset_resultValid : s.takeReset.resultValid = false := rfl
@[simp] theorem State.takeReset_inputs : s.takeReset.inputs = s.inputs.tail := rfl
@[simp] theorem State.takeReset_waitEdges : s.takeReset.waitEdges = 0 := rfl
@[simp] theorem State.takeReset_latencies : s.takeReset.latencies = s.latencies := rfl
@[simp] theorem State.takeReset_edge : s.takeReset.edge = s.edge + 1 := rfl

/-! ## hold -/

@[simp] theorem State.hold_operand : s.hold.operand = s.operand := rfl
@[simp] theorem State.hold_result : s.hold.result = s.result := rfl
@[simp] theorem State.hold_busy : s.hold.busy = s.busy := rfl
@[simp] theorem State.hold_resultValid : s.hold.resultValid = s.resultValid := rfl
@[simp] theorem State.hold_inputs : s.hold.inputs = s.inputs.tail := rfl
@[simp] theorem State.hold_waitEdges : s.hold.waitEdges = s.waitEdges - 1 := rfl
@[simp] theorem State.hold_latencies : s.hold.latencies = s.latencies := rfl
@[simp] theorem State.hold_edge : s.hold.edge = s.edge + 1 := rfl

/-! ## withOperandInProgress -/

@[simp] theorem State.withOperandInProgress_operand (w : Word) : (s.withOperandInProgress w).operand = w := rfl
@[simp] theorem State.withOperandInProgress_result (w : Word) : (s.withOperandInProgress w).result = s.result := rfl
@[simp] theorem State.withOperandInProgress_busy (w : Word) : (s.withOperandInProgress w).busy = true := rfl
@[simp] theorem State.withOperandInProgress_resultValid (w : Word) : (s.withOperandInProgress w).resultValid = false := rfl
@[simp] theorem State.withOperandInProgress_inputs (w : Word) : (s.withOperandInProgress w).inputs = releaseReset s.inputs := rfl
@[simp] theorem State.withOperandInProgress_waitEdges (w : Word) : (s.withOperandInProgress w).waitEdges = 0 := rfl
@[simp] theorem State.withOperandInProgress_latencies (w : Word) : (s.withOperandInProgress w).latencies = s.latencies := rfl
@[simp] theorem State.withOperandInProgress_edge (w : Word) : (s.withOperandInProgress w).edge = s.edge := rfl

/-! ## The state after reset (R33) -/

@[simp] theorem State.reset_busy : State.reset.busy = false := rfl
@[simp] theorem State.reset_resultValid : State.reset.resultValid = false := rfl
@[simp] theorem State.reset_inputs : State.reset.inputs = [] := rfl
@[simp] theorem State.reset_waitEdges : State.reset.waitEdges = 0 := rfl
@[simp] theorem State.reset_latencies : State.reset.latencies = [] := rfl

/-! ## The input side -/

@[simp] theorem State.pins_of_cons (p : PortInputs) (ps : List PortInputs) (h : s.inputs = p :: ps) : s.pins = p := by
  rw [State.pins, h]; rfl

@[simp] theorem State.pins_of_nil (h : s.inputs = []) : s.pins = PortInputs.idle := by rw [State.pins, h]; rfl

@[simp] theorem State.complete_pins (out : Digits) : (s.complete out).pins = s.pins := rfl

theorem State.nextLatency_of_cons (k : Nat) (ks : List Nat) (h : s.latencies = k :: ks) : s.nextLatency = k := by
  rw [State.nextLatency, h]

end Sys2Proof.Machine
end

