-- ==== Sys2Proof/Laws/Ops.lean ====
section
/-! SUPPORT. What `exec` and `step` can do, said once: every meaning is the COMPLETE effect on some digits, and an edge
takes one of five steps. -/

namespace Sys2Proof.Machine

/-- Every row's meaning is the COMPLETE effect (R92) on digits that the instruction alone determines (R96). -/
theorem exec_is_complete (i : Instr) : ∃ out : Digits, ∀ s : State, exec i s = .next (s.complete out) := by
  cases i <;> exact ⟨_, fun _ => rfl⟩

/-- When an edge takes which step (R91, R92, R97, R240). -/
theorem edgeStep_cases (s : State) :
    (s.edgeStep = .reset ∧ s.pins.rst = true) ∨
    (s.edgeStep = .complete ∧ s.pins.rst = false ∧ s.busy = true ∧ s.waitEdges = 0) ∨
    (s.edgeStep = .hold ∧ s.pins.rst = false ∧ s.busy = true ∧ s.waitEdges ≠ 0) ∨
    (s.edgeStep = .acceptAndComplete ∧ s.pins.rst = false ∧ s.busy = false ∧ s.pins.inValid = true ∧ s.nextLatency = 0) ∨
    (s.edgeStep = .accept ∧ s.pins.rst = false ∧ s.busy = false ∧ s.pins.inValid = true ∧ s.nextLatency ≠ 0) ∨
    (s.edgeStep = .hold ∧ s.pins.rst = false ∧ s.busy = false ∧ s.pins.inValid = false) := by
  unfold State.edgeStep
  cases s.pins.rst <;> cases s.busy <;> cases s.pins.inValid <;> by_cases hw : s.waitEdges = 0 <;>
    by_cases hl : s.nextLatency = 0 <;> simp [hw, hl]

theorem edgeStep_of_rst {s : State} (h : s.pins.rst = true) : s.edgeStep = .reset := by simp [State.edgeStep, h]

theorem edgeStep_of_busy {s : State} (hr : s.pins.rst = false) (hb : s.busy = true) :
    s.edgeStep = if s.waitEdges = 0 then .complete else .hold := by simp [State.edgeStep, hr, hb]

theorem edgeStep_of_offer {s : State} (hr : s.pins.rst = false) (hb : s.busy = false) (hv : s.pins.inValid = true) :
    s.edgeStep = if s.nextLatency = 0 then .acceptAndComplete else .accept := by simp [State.edgeStep, hr, hb, hv]

theorem edgeStep_of_no_offer {s : State} (hr : s.pins.rst = false) (hb : s.busy = false) (hv : s.pins.inValid = false) :
    s.edgeStep = .hold := by simp [State.edgeStep, hr, hb, hv]

theorem step_of_reset {s : State} (h : s.edgeStep = .reset) : step s = .next s.takeReset := by rw [step, h]

theorem step_of_accept {s : State} (h : s.edgeStep = .accept) : step s = .next s.accept := by rw [step, h]

theorem step_of_hold {s : State} (h : s.edgeStep = .hold) : step s = .next s.hold := by rw [step, h]

theorem step_of_complete {s : State} (h : s.edgeStep = .complete) : step s = exec (decode s.operand) s.tick := by
  rw [step, h]

theorem step_of_acceptAndComplete {s : State} (h : s.edgeStep = .acceptAndComplete) :
    step s = exec (decode s.pins.inValue) s.accept := by rw [step, h]

/-- Everything an edge can do: its five steps, with the conditions under which each is taken. -/
theorem step_next_cases {s t : State} (h : step s = .next t) :
    (s.pins.rst = true ∧ t = s.takeReset) ∨
    (s.pins.rst = false ∧ s.busy = true ∧ s.waitEdges = 0 ∧ exec (decode s.operand) s.tick = .next t) ∨
    (s.pins.rst = false ∧ s.busy = true ∧ s.waitEdges ≠ 0 ∧ t = s.hold) ∨
    (s.pins.rst = false ∧ s.busy = false ∧ s.pins.inValid = true ∧ s.nextLatency = 0 ∧
      exec (decode s.pins.inValue) s.accept = .next t) ∨
    (s.pins.rst = false ∧ s.busy = false ∧ s.pins.inValid = true ∧ s.nextLatency ≠ 0 ∧ t = s.accept) ∨
    (s.pins.rst = false ∧ s.busy = false ∧ s.pins.inValid = false ∧ t = s.hold) := by
  obtain ⟨e, a⟩ | ⟨e, a⟩ | ⟨e, a⟩ | ⟨e, a⟩ | ⟨e, a⟩ | ⟨e, a⟩ := edgeStep_cases s
  · rw [step_of_reset e] at h; cases h; exact .inl ⟨a, rfl⟩
  · rw [step_of_complete e] at h; exact .inr (.inl ⟨a.1, a.2.1, a.2.2, h⟩)
  · rw [step_of_hold e] at h; cases h; exact .inr (.inr (.inl ⟨a.1, a.2.1, a.2.2, rfl⟩))
  · rw [step_of_acceptAndComplete e] at h; exact .inr (.inr (.inr (.inl ⟨a.1, a.2.1, a.2.2.1, a.2.2.2, h⟩)))
  · rw [step_of_accept e] at h; cases h
    exact .inr (.inr (.inr (.inr (.inl ⟨a.1, a.2.1, a.2.2.1, a.2.2.2, rfl⟩))))
  · rw [step_of_hold e] at h; cases h
    exact .inr (.inr (.inr (.inr (.inr ⟨a.1, a.2.1, a.2.2, rfl⟩))))

end Sys2Proof.Machine
end

