-- ==== Sys2Proof/Laws/PerInstr.lean ====
section
/-! SUPPORT. Statements made per instruction. Family `EncodedWordMatchesRow`: the word the encoder writes for a well-formed
instruction meets the mask, match and field constraints of the instruction's row of `spec/opcode_table.json` (R75). -/

namespace Sys2Proof.Laws.EncodedWordMatchesRow

/-- The encoded word of a well-formed instruction matches the instruction's row. -/
def Statement (i : Instr) : Prop := i.wellFormed = true → i.row.matchesWord (encode i) = true

/-- Masking acts field by field. -/
theorem packFields_and (s t : Digit) (d e : BitVec 11) (f g : BitVec 52) :
    packFields s d f &&& packFields t e g = packFields (s && t) (d &&& e) (f &&& g) := by
  have h : BitVec.ofBool s &&& BitVec.ofBool t = BitVec.ofBool (s && t) := by cases s <;> cases t <;> rfl
  unfold packFields
  rw [← h, BitVec.and_append, BitVec.and_append]

theorem exponentMask : (0x7FF0000000000000 : Word) = packFields false 2047 0 := by decide

theorem encode (w : Word) : Statement (.encode w) := by
  intro _
  have h : (expField w).toNat ≤ 2047 := Nat.le_of_lt_succ (expField w).isLt
  simp [Instr.row, encodeRow, Row.matchesWord, FracRule.holds, Sys2Proof.encode, h]

theorem encodeNan (s : Digit) (f : BitVec 52) : Statement (.encodeNan s f) := by
  intro h
  have hm : packFields s 2047 f &&& packFields false 2047 0 = packFields false 2047 0 := by simp [packFields_and]
  simp only [Instr.row, OperandClass.row, Row.matchesWord, Sys2Proof.encode, exponentMask, hm]
  simpa [FracRule.holds, Instr.wellFormed] using h

theorem encodePinf : Statement .encodePinf := by intro _; decide

theorem encodeNinf : Statement .encodeNinf := by intro _; decide

theorem encodeZero (s : Digit) : Statement (.encodeZero s) := by intro _; cases s <;> decide

theorem encodeSubnormal (s : Digit) (f : BitVec 52) : Statement (.encodeSubnormal s f) := by
  intro h
  have hm : packFields s 0 f &&& packFields false 2047 0 = 0 := by rw [packFields_and]; simp; decide
  simp only [Instr.row, OperandClass.row, Row.matchesWord, Sys2Proof.encode, exponentMask, hm]
  simpa [FracRule.holds, Instr.wellFormed] using h

theorem encodeFraction (s : Digit) (e : BitVec 11) (f : BitVec 52) : Statement (.encodeFraction s e f) := by
  intro h
  simpa [Instr.row, OperandClass.row, Row.matchesWord, FracRule.holds, Sys2Proof.encode, Instr.wellFormed] using h

theorem encodeMixed (s : Digit) (e : BitVec 11) (f : BitVec 52) : Statement (.encodeMixed s e f) := by
  intro h
  simpa [Instr.row, OperandClass.row, Row.matchesWord, FracRule.holds, Sys2Proof.encode, Instr.wellFormed] using h

theorem encodeClamp (s : Digit) (e : BitVec 11) (f : BitVec 52) : Statement (.encodeClamp s e f) := by
  intro h
  simpa [Instr.row, OperandClass.row, Row.matchesWord, FracRule.holds, Sys2Proof.encode, Instr.wellFormed] using h

end Sys2Proof.Laws.EncodedWordMatchesRow
end

