-- ==== Sys2Proof/Laws/Run.lean ====
section
/-! SUPPORT. Runs of several edges, and the induction every invariant of a run goes through. -/

namespace Sys2Proof.Machine

/-- One step of the host's run. -/
theorem coreRun_succ (M : Host.Core) (k : Nat) (s : M.State) :
    M.run (k + 1) s = (match M.step s with
      | .next t => M.run k t
      | .fault r => .fault r
      | .refused r => .refused r) := rfl

/-- `runEdges` is the host's run of this machine. -/
theorem runEdges_eq_coreRun (k : Nat) (s : State) : runEdges k s = core.run k s := by
  induction k generalizing s with
  | zero => rfl
  | succ k ih =>
    have hc := coreRun_succ core k s
    cases h : step s with
    | next t =>
      have h' : core.step s = .next t := h
      rw [h'] at hc
      rw [runEdges, h, hc]
      exact ih t
    | fault r => exact nomatch r
    | refused r =>
      have h' : core.step s = .refused r := h
      rw [h'] at hc
      rw [runEdges, h, hc]
      rfl

theorem runEdges_succ_of_step {s t : State} (h : step s = .next t) (k : Nat) : runEdges (k + 1) s = runEdges k t := by
  rw [runEdges, h]

/-- A property that every step keeps holds after every run that started with it. -/
theorem runEdges_keeps {P : State → Prop} (hstep : ∀ s t, P s → step s = .next t → P t) (k : Nat) {s t : State}
    (hs : P s) (h : runEdges k s = .next t) : P t := by
  induction k generalizing s with
  | zero => simp only [runEdges, Host.Outcome.next.injEq] at h; exact h ▸ hs
  | succ k ih =>
    rw [runEdges] at h
    cases hst : step s with
    | next u => rw [hst] at h; exact ih (hstep s u hs hst) h
    | fault r => cases r
    | refused r => rw [hst] at h; simp at h

/-- A run whose first edge does not reset sees `rst = 0` at that edge, past the listed inputs too (log 1). -/
theorem rst_of_noReset {s : State} {k : Nat} (h : noReset (s.inputs.take (k + 1))) : s.pins.rst = false := by
  cases hi : s.inputs with
  | nil => rw [State.pins_of_nil s hi]; rfl
  | cons p ps =>
    rw [State.pins_of_cons s p ps hi]
    rw [hi] at h
    exact h p (by simp)

/-- The edges after the first of a run without reset are a run without reset. -/
theorem noReset_tail {l : List PortInputs} {k : Nat} (h : noReset (l.take (k + 1))) : noReset (l.tail.take k) := by
  intro p hp
  cases l with
  | nil => simp at hp
  | cons q qs => exact h p (by simp only [List.take_succ_cons, List.mem_cons]; exact .inr (by simpa using hp))

end Sys2Proof.Machine
end

