-- ==== Sys2Proof/Laws/Stages.lean ====
section
/-! SUPPORT. What the stages compute: one lemma per loop and per stage, cited instead of unfolding it. -/

namespace Sys2Proof.Machine

/-! ## The integer loop -/

theorem intDigitLoop_eq (fuel x : Nat) (h : bitlen x ≤ fuel) : intDigitLoop fuel x = (bin (bitlen x) x).reverse := by
  induction fuel generalizing x with
  | zero =>
    rw [Nat.le_zero.1 h]; rfl
  | succ fuel ih =>
    by_cases hx : x = 0
    · subst hx; simp [intDigitLoop, bitlen, bin]
    · have hb := bitlen_half hx
      rw [intDigitLoop, if_pos (by omega), ih _ (by omega), hb, bin_add, List.reverse_append]
      have : (x % 2 == 1) = decide (x % 2 = 1) := by rcases Nat.mod_two_eq_zero_or_one x with h | h <;> rw [h] <;> rfl
      simp [bin, Nat.testBit_zero, this]

theorem intDigits_eq_bin (I : Nat) : intDigits I = bin (bitlen I) I := by
  rw [intDigits, intDigitLoop_eq _ _ le_rfl, List.reverse_reverse]

/-! ## The fraction loop -/

theorem testBit_doubled {r u : Nat} (h : r < u) (k : Nat) : (r * 2 ^ (k + 1) / u).testBit k = decide (2 * r ≥ u) := by
  have key : r * 2 ^ (k + 1) / u / 2 ^ k = 2 * r / u := by
    rw [Nat.div_div_eq_div_mul, Nat.mul_comm u, ← Nat.div_div_eq_div_mul, Nat.pow_succ', ← Nat.mul_assoc,
      Nat.mul_comm r 2, Nat.mul_div_cancel _ (by positivity)]
  rw [Nat.testBit_eq_decide_div_mod_eq, key]
  by_cases h1 : 2 * r ≥ u
  · have : 2 * r / u = 1 := Nat.div_eq_of_lt_le (show 1 * u ≤ 2 * r by omega) (show 2 * r < (1 + 1) * u by omega)
    rw [this]; simpa using h1
  · rw [Nat.div_eq_of_lt (Nat.lt_of_not_le h1)]; simpa using h1

theorem mod_doubled {r u : Nat} (h : r < u) (k : Nat) :
    r * 2 ^ (k + 1) / u % 2 ^ k = 2 * r % u * 2 ^ k / u := by
  have hu : 0 < u := by omega
  have hm : 2 * r % u < u := Nat.mod_lt _ hu
  have key : r * 2 ^ (k + 1) / u = 2 * r % u * 2 ^ k / u + 2 * r / u * 2 ^ k := by
    rw [← Nat.add_mul_div_right _ _ hu]
    congr 1
    conv_lhs => rw [Nat.pow_succ', ← Nat.mul_assoc, Nat.mul_comm r 2, ← Nat.mod_add_div (2 * r) u]
    ring
  rw [key, Nat.add_mul_mod_self_right, Nat.mod_eq_of_lt]
  rw [Nat.div_lt_iff_lt_mul hu, Nat.mul_comm]
  exact Nat.mul_lt_mul_of_pos_left hm (by positivity)

theorem unitBits_eq : unitBits = 1074 := by rw [unitBits]

theorem magOne_pos : 0 < magOne := Nat.two_pow_pos _

theorem nextRemainder_eq_mod {r : Nat} (h : r < magOne) : nextRemainder r = 2 * r % magOne := by
  unfold nextRemainder fracDigit
  by_cases hd : 2 * r ≥ magOne
  · have h2 : 2 * r - magOne < magOne := by omega
    rw [decide_eq_true hd, Nat.mod_eq_sub_mod hd, Nat.mod_eq_of_lt h2, Bool.toNat_true, Nat.one_mul]
  · rw [decide_eq_false hd, Nat.mod_eq_of_lt (Nat.lt_of_not_le hd), Bool.toNat_false, Nat.zero_mul, Nat.sub_zero]

theorem nextRemainder_lt {r : Nat} (h : r < magOne) : nextRemainder r < magOne := by
  rw [nextRemainder_eq_mod h]; exact Nat.mod_lt _ magOne_pos

theorem fracLoop_zero_remainder (fuel : Nat) (sh : Int) (seen : Bool) : fracLoop fuel 0 sh seen = ⟨[], sh⟩ := by
  cases fuel <;> simp [fracLoop, zeroThreshold]

theorem fracLoop_succ {r : Nat} (h : r ≠ 0) (fuel : Nat) (sh : Int) (seen : Bool) :
    fracLoop (fuel + 1) r sh seen =
      ⟨fracDigit r :: (fracLoop fuel (nextRemainder r) (nextShift (fracDigit r) seen sh) (seen || fracDigit r)).FD,
        (fracLoop fuel (nextRemainder r) (nextShift (fracDigit r) seen sh) (seen || fracDigit r)).shift⟩ := by
  rw [fracLoop, if_pos (show r ≥ zeroThreshold from Nat.pos_of_ne_zero h)]

theorem length_fracLoop_le (fuel : Nat) (r : Nat) (sh : Int) (seen : Bool) : (fracLoop fuel r sh seen).FD.length ≤ fuel := by
  induction fuel generalizing r sh seen with
  | zero => simp [fracLoop]
  | succ fuel ih =>
    by_cases h : r = 0
    · simp [h, fracLoop_zero_remainder]
    · rw [fracLoop_succ h]; simpa using ih _ _ _

theorem fracLoop_FD_padded (fuel : Nat) {r : Nat} (h : r < magOne) (sh : Int) (seen : Bool) :
    (fracLoop fuel r sh seen).FD ++ zeros (fuel - (fracLoop fuel r sh seen).FD.length) = bin fuel (r * 2 ^ fuel / magOne) := by
  induction fuel generalizing r sh seen with
  | zero => rfl
  | succ fuel ih =>
    by_cases h0 : r = 0
    · subst h0; rw [fracLoop_zero_remainder]; simp [bin_zero]
    · rw [fracLoop_succ h0, bin]
      simp only [List.length_cons, Nat.add_sub_add_right, List.cons_append]
      have hr := nextRemainder_eq_mod h
      rw [ih (nextRemainder_lt h)]
      rw [testBit_doubled h, hr, ← mod_doubled h, bin_mod _ _ le_rfl, fracDigit]

theorem fracLoop_shift_seen (fuel : Nat) (r : Nat) (sh : Int) : (fracLoop fuel r sh true).shift = sh := by
  induction fuel generalizing r with
  | zero => rfl
  | succ fuel ih =>
    by_cases h : r = 0
    · rw [h, fracLoop_zero_remainder]
    · rw [fracLoop_succ h]; simpa [nextShift] using ih _

theorem fracLoop_shift (fuel : Nat) (r : Nat) (sh : Int) :
    (fracLoop fuel r sh false).shift = sh - leadingZeros (fracLoop fuel r sh false).FD := by
  induction fuel generalizing r sh with
  | zero => simp [fracLoop, leadingZeros]
  | succ fuel ih =>
    by_cases h : r = 0
    · rw [h, fracLoop_zero_remainder]; simp [leadingZeros]
    · rw [fracLoop_succ h]
      cases hd : fracDigit r
      · simp only [nextShift, Bool.or_false, leadingZeros, Bool.false_eq_true, if_false, ih]
        push_cast; ring
      · simp [nextShift, leadingZeros, fracLoop_shift_seen]

theorem length_keptDigits_le (n : Nat) (FD : Digits) (sh : Int) : (keptDigits n FD sh).length ≤ if n = 0 then 52 else 53 - n := by
  unfold keptDigits
  by_cases h : n = 0
  · subst h; rw [if_neg (by decide), if_pos rfl]; split <;> simp
  · rw [if_pos (show n ≥ 1 by omega), if_neg h]; simp

theorem length_mantissaDigits_le {ID : Digits} (h : ID.length ≤ 53) (FD : Digits) (sh : Int) :
    (mantissaDigits ID FD sh).length ≤ 52 := by
  have := length_keptDigits_le ID.length FD sh
  rw [mantissaDigits, List.length_append, List.length_drop]
  split at this <;> omega

theorem assemble_eq {ID : Digits} (h : ID.length ≤ 53) (s : Digit) (FD : Digits) (sh : Int) :
    assemble s ID FD sh = s :: (bin 11 (exponentField ID.length FD sh) ++
      (mantissaDigits ID FD sh ++ zeros (52 - (mantissaDigits ID FD sh).length))) := by
  have hm := length_mantissaDigits_le h FD sh
  have : outLen - ([s] ++ bin expW (exponentField ID.length FD sh) ++ mantissaDigits ID FD sh).length
      = 52 - (mantissaDigits ID FD sh).length := by
    simp only [List.length_append, List.length_singleton, length_bin, outLen, expW]; omega
  rw [assemble]
  simp only [this]
  simp [expW]

theorem length_assemble {ID : Digits} (h : ID.length ≤ 53) (s : Digit) (FD : Digits) (sh : Int) :
    (assemble s ID FD sh).length = 64 := by
  have hm := length_mantissaDigits_le h FD sh
  rw [assemble_eq h]; simp; omega

theorem fracExpand_FD_padded (a n : Nat) :
    (fracExpand (magFraction a) n).FD ++ zeros (unitBits - (fracExpand (magFraction a) n).FD.length) = bin unitBits (magFraction a) := by
  have h : magFraction a < magOne := Nat.mod_lt _ magOne_pos
  have := fracLoop_FD_padded unitBits h 0 false
  rw [show magFraction a * 2 ^ unitBits / magOne = magFraction a from Nat.mul_div_cancel _ magOne_pos] at this
  exact this

theorem fracExpand_length_le (r n : Nat) : (fracExpand r n).FD.length ≤ unitBits := length_fracLoop_le _ _ _ _

theorem intExpand_eq (I : Nat) : intExpand I = ⟨(bin (bitlen I) I).take 53, min 53 (bitlen I)⟩ := by
  rw [intExpand, intDigits_eq_bin]; simp [intCap]

/-- The padded mantissa digits when the integer part is not empty: the 53 most significant digits of `a`, without the first. -/
theorem mantissa_nonempty {a : Nat} (h : magOne ≤ a) :
    let ip := intExpand (magFloor a); let fp := fracExpand (magFraction a) ip.n
    mantissaDigits ip.ID fp.FD fp.shift ++ zeros (52 - (mantissaDigits ip.ID fp.FD fp.shift).length)
      = bin 52 (a / 2 ^ (bitlen (magFloor a) + unitBits - 53)) := by
  intro ip fp
  have hub := unitBits_eq
  have hI : magFloor a ≠ 0 := by rw [magFloor]; exact (Nat.div_pos h magOne_pos).ne'
  have hpos : 0 < bitlen (magFloor a) := by
    by_contra hc
    have := (bitlen_bounds hI).2
    rw [Nat.eq_zero_of_not_pos hc] at this; omega
  have hpad := fracExpand_FD_padded a ip.n
  have hl := fracExpand_length_le (magFraction a) ip.n
  generalize hb : bitlen (magFloor a) = b at *
  have hid : ip.ID = (bin b (magFloor a)).take 53 := by simp only [ip, intExpand_eq, hb]
  have hn : ip.ID.length = min 53 b := by rw [hid]; simp
  have hk : keptDigits ip.ID.length fp.FD fp.shift = fp.FD.take (53 - b) := by
    rw [keptDigits, if_pos (by omega), hn]; congr 1; omega
  have hm : mantissaDigits ip.ID fp.FD fp.shift = ip.ID.drop 1 ++ fp.FD.take (53 - b) := by rw [mantissaDigits, hk]
  have hz : 52 - (ip.ID.drop 1 ++ fp.FD.take (53 - b)).length = 53 - b - (fp.FD.take (53 - b)).length := by
    simp only [List.length_append, List.length_drop, hn, List.length_take]; omega
  have hfull : (bin b (magFloor a)).take 53 ++ (bin unitBits (magFraction a)).take (53 - b)
      = bin 53 (a / 2 ^ (b + unitBits - 53)) := by
    have h1 := take_bin (j := 53) (k := b + unitBits) a (by omega)
    rw [bin_add, List.take_append, length_bin] at h1
    rw [← h1, ← bin_mod unitBits a le_rfl]
    rfl
  have hne : 1 ≤ ((bin b (magFloor a)).take 53).length := by simp; omega
  rw [hm, hz, List.append_assoc, take_padded _ (unitBits - fp.FD.length) _ (by omega), hpad, hid,
    ← List.drop_append_of_le_length hne, hfull, drop_one_bin]

theorem fracExpand_shift (r n : Nat) : (fracExpand r n).shift = - leadingZeros (fracExpand r n).FD := by
  rw [fracExpand, fracLoop_shift]; simp

theorem fracExpand_has_one {a : Nat} (h : magFraction a ≠ 0) (n : Nat) : true ∈ (fracExpand (magFraction a) n).FD := by
  by_contra hc
  have hp := congrArg val (fracExpand_FD_padded a n)
  have hl : magFraction a < 2 ^ unitBits := Nat.mod_lt _ magOne_pos
  rw [val_append, val_zeros, val_eq_zero_of_no_one hc, val_bin, Nat.mod_eq_of_lt hl] at hp
  simp at hp; omega

theorem fracExpand_shift_eq {a : Nat} (h : magFraction a ≠ 0) (n : Nat) :
    (fracExpand (magFraction a) n).shift = (bitlen (magFraction a) : Int) - unitBits := by
  have hl : magFraction a < magOne := Nat.mod_lt _ magOne_pos
  have h1 := leadingZeros_bin (k := unitBits) h hl
  rw [← fracExpand_FD_padded a n, leadingZeros_append (fracExpand_has_one h n)] at h1
  rw [fracExpand_shift, h1]
  have : bitlen (magFraction a) ≤ unitBits := by
    by_contra hc
    have h2 := (bitlen_bounds h).1
    have h3 : magOne ≤ 2 ^ (bitlen (magFraction a) - 1) := Nat.pow_le_pow_right (by norm_num) (by omega)
    omega
  omega

/-- The padded mantissa digits when the integer part is empty: the digits of `a` after its first 1 digit. -/
theorem mantissa_empty {a : Nat} (h : a < magOne) (h0 : a ≠ 0) (n : Nat) :
    let fp := fracExpand (magFraction a) n
    mantissaDigits [] fp.FD fp.shift ++ zeros (52 - (mantissaDigits [] fp.FD fp.shift).length)
      = (bin (bitlen a - 1) a ++ zeros 52).take 52 := by
  intro fp
  have hfr : magFraction a = a := Nat.mod_eq_of_lt h
  have hsh := fracExpand_shift_eq (a := a) (by rwa [hfr]) n
  have hl := fracExpand_length_le (magFraction a) n
  have hone := fracExpand_has_one (a := a) (by rwa [hfr]) n
  have hpad := fracExpand_FD_padded a n
  have hb : bitlen a ≤ unitBits := by
    by_contra hc
    have h2 := (bitlen_bounds h0).1
    have h3 : magOne ≤ 2 ^ (bitlen a - 1) := Nat.pow_le_pow_right (by norm_num) (by omega)
    omega
  have hne : fp.FD.length ≠ 0 := by
    intro hc
    rw [List.length_eq_zero_iff] at hc
    simp only [fp] at hc
    rw [hc] at hone; simp at hone
  have hlz := leadingZeros_lt hone
  have hsz := fracExpand_shift (magFraction a) n
  rw [hfr] at hsh
  have hp1 : firstOne fp.shift = unitBits + 1 - bitlen a := by
    simp only [firstOne, fp, hfr, hsh]; omega
  have hple : firstOne fp.shift ≤ fp.FD.length := by
    simp only [fp, firstOne]; omega
  have hm : mantissaDigits [] fp.FD fp.shift = (fp.FD.drop (firstOne fp.shift)).take 52 := by
    rw [mantissaDigits, keptDigits, if_neg (by simp), if_pos hne]; rfl
  rw [hm, take_padded 52 ((unitBits - fp.FD.length) + 52) _ (by omega), zeros, List.replicate_add, ← List.append_assoc,
    ← List.drop_append_of_le_length hple]
  change List.take 52 (List.drop _ (fp.FD ++ zeros _) ++ zeros 52) = _
  rw [hpad, hp1, drop_bin, hfr]
  congr 2
  have : 0 < bitlen a := by rw [bitlen, if_neg h0]; omega
  have : unitBits - (unitBits + 1 - bitlen a) = bitlen a - 1 := by omega
  rw [this]

end Sys2Proof.Machine
end

