-- ==== Sys2Proof/Tests/Slice0.lean ====
section
/-! SUPPORT. Tests. Expected values come from `spec/`: the vectors V1 to V48 of 95_test_vectors.md section 2.9, the wrapper
table of its section 2.10, and the encodings of R60 and R65. The last part gives, for every statement with hypotheses, a
concrete state and operands that meet them. -/

namespace Sys2Proof.Tests

open Sys2Proof.Machine

/-- A block with the given registers, the inputs of the coming edges, edges to hold, and LATENCY draws. -/
def block (operand result : Word) (busy resultValid : Bool) (inputs : List PortInputs) (waitEdges : Nat)
    (latencies : List Nat) : State :=
  ⟨operand, result, busy, resultValid, inputs, waitEdges, latencies, 0⟩

/-- A block at rest. -/
def idleBlock : State := block 0 0 false false [] 0 []

/-- The registers of a next state, in the order of 95_test_vectors.md section 2.10, without RESULT. -/
def wrapperOf : StepOutcome → Option (Bool × Bool × Word)
  | .next t => some (t.busy, t.resultValid, t.operand)
  | .fault _ => none
  | .refused _ => none

/-- RESULT of a next state. -/
def resultOf : StepOutcome → Option Word
  | .next t => some t.result
  | .fault _ => none
  | .refused _ => none

/-- The whole next state. -/
def nextOf : StepOutcome → Option State
  | .next t => some t
  | .fault _ => none
  | .refused _ => none

/-! ## WellFormed refuses an ill-formed term of each check -/

theorem test_wf_nan_needs_payload : (Instr.encodeNan true 0).wellFormed = false := by decide
theorem test_wf_subnormal_needs_mantissa : (Instr.encodeSubnormal false 0).wellFormed = false := by decide
theorem test_wf_fraction_above_zero_exponent : (Instr.encodeFraction false 0 1).wellFormed = false := by decide
theorem test_wf_fraction_below_mixed : (Instr.encodeFraction false 1023 1).wellFormed = false := by decide
theorem test_wf_mixed_above_fraction : (Instr.encodeMixed false 1022 1).wellFormed = false := by decide
theorem test_wf_mixed_below_clamp : (Instr.encodeMixed false 1075 1).wellFormed = false := by decide
theorem test_wf_clamp_above_mixed : (Instr.encodeClamp false 1074 1).wellFormed = false := by decide
theorem test_wf_clamp_below_reserved : (Instr.encodeClamp false 2047 1).wellFormed = false := by decide
theorem test_wf_bounds_admitted :
    (Instr.encodeFraction true 1 0).wellFormed = true ∧ (Instr.encodeFraction true 1022 0).wellFormed = true ∧
    (Instr.encodeMixed true 1023 0).wellFormed = true ∧ (Instr.encodeMixed true 1074 0).wellFormed = true ∧
    (Instr.encodeClamp true 1075 0).wellFormed = true ∧ (Instr.encodeClamp true 2046 0).wellFormed = true := by decide

/-! ## Decoding: words written out from R60 and R65 as sign, exponent and mantissa digits -/

theorem test_decode_nan :
    decode (0b1#1 ++ 0b11111111111#11 ++ 0b1000000000000000000000000000000000000000000000000000#52) =
      .encodeNan true 0x8000000000000 := by decide
theorem test_decode_pinf : decode (0b0#1 ++ 0b11111111111#11 ++ 0#52) = .encodePinf := by decide
theorem test_decode_ninf : decode (0b1#1 ++ 0b11111111111#11 ++ 0#52) = .encodeNinf := by decide
theorem test_decode_zero : decode (0b1#1 ++ 0b00000000000#11 ++ 0#52) = .encodeZero true := by decide
theorem test_decode_subnormal :
    decode (0b0#1 ++ 0b00000000000#11 ++ 0b1100000000000000000000000000000000000000000000000001#52) =
      .encodeSubnormal false 0xC000000000001 := by decide
theorem test_decode_fraction :
    decode (0b0#1 ++ 0b01111111100#11 ++ 0b1001100110011001100110011001100110011001100110011010#52) =
      .encodeFraction false 1020 0x999999999999A := by decide
theorem test_decode_fraction_bounds :
    decode (0b1#1 ++ 0b00000000001#11 ++ 0#52) = .encodeFraction true 1 0 ∧
    decode (0b0#1 ++ 0b01111111110#11 ++ 0#52) = .encodeFraction false 1022 0 := by decide
theorem test_decode_mixed :
    decode (0b1#1 ++ 0b10000000110#11 ++ 0b1111111010000010100011110101110000101000111101011100#52) =
      .encodeMixed true 1030 0xFE828F5C28F5C := by decide
theorem test_decode_mixed_bounds :
    decode (0b0#1 ++ 0b01111111111#11 ++ 0#52) = .encodeMixed false 1023 0 ∧
    decode (0b1#1 ++ 0b10000110010#11 ++ 1#52) = .encodeMixed true 1074 1 := by decide
theorem test_decode_clamp :
    decode (0b0#1 ++ 0b11111100011#11 ++ 0b0111111001000011110010001000000000000111010110011100#52) =
      .encodeClamp false 2019 0x7E43C8800759C := by decide
theorem test_decode_clamp_bounds :
    decode (0b1#1 ++ 0b10000110011#11 ++ 0#52) = .encodeClamp true 1075 0 ∧
    decode (0b0#1 ++ 0b11111111110#11 ++ 1#52) = .encodeClamp false 2046 1 := by decide

/-- R76: what is not one 64-bit word is rejected by name. -/
theorem test_decode_rejects_other_lengths :
    decodeBits 72 0 = .rejected .notOneOperandWord ∧ decodeBits 64 (2 ^ 64) = .rejected .notOneOperandWord := by decide
/-- Not the spec's: what the model does with a shorter string (log 19). -/
theorem test_decode_fills_shorter_strings : decodeBits 8 5 = .instr (.encodeSubnormal false 5) := by decide
theorem test_decode_table_word :
    decodeTableWord 64 0x7FF0000000000000 = some .encodePinf ∧ decodeTableWord 72 0 = none := by decide

/-! ## Each row's result (95_test_vectors.md section 2.9) -/

/-- V15 and V39. -/
theorem test_exec_encode :
    resultOf (exec (.encode 0x3FC999999999999A) idleBlock) = some 0x3FC999999999999A ∧
    resultOf (exec (.encode 0x7E37E43C8800759C) idleBlock) = some 0x7FE7E43C8800759C := by decide +kernel
/-- V10: the ENCODE row on a subnormal. -/
theorem test_exec_encode_subnormal :
    resultOf (exec (.encode 0x000C000000000001) idleBlock) = some 0x0008000000000002 := by decide +kernel
/-- V45. -/
theorem test_exec_encodeNan : resultOf (exec (.encodeNan false 1) idleBlock) = some 0xFFF8000000000000 := by decide +kernel
/-- V43. -/
theorem test_exec_encodePinf : resultOf (exec .encodePinf idleBlock) = some 0x7FF0000000000000 := by decide +kernel
/-- V44. -/
theorem test_exec_encodeNinf : resultOf (exec .encodeNinf idleBlock) = some 0xFFF0000000000000 := by decide +kernel
/-- V1 and V2. -/
theorem test_exec_encodeZero :
    resultOf (exec (.encodeZero false) idleBlock) = some 0 ∧
    resultOf (exec (.encodeZero true) idleBlock) = some 0x8000000000000000 := by decide +kernel
/-- V3 and V7. -/
theorem test_exec_encodeSubnormal :
    resultOf (exec (.encodeSubnormal false 1) idleBlock) = some 0 ∧
    resultOf (exec (.encodeSubnormal false 5) idleBlock) = some 0x0004000000000000 := by decide +kernel
/-- V11, the largest subnormal. -/
theorem test_exec_encodeSubnormal_largest :
    resultOf (exec (.encodeSubnormal false 0xFFFFFFFFFFFFF) idleBlock) = some 0x000FFFFFFFFFFFFE := by decide +kernel
/-- V17: 0.5 is not forced to exponent 0. -/
theorem test_exec_encodeFraction_half :
    resultOf (exec (.encodeFraction false 1022 0) idleBlock) = some 0x3FE0000000000000 := by decide +kernel
/-- V13. -/
theorem test_exec_encodeFraction_least :
    resultOf (exec (.encodeFraction false 1 1) idleBlock) = some 0x0010000000000001 := by decide +kernel
/-- V27. -/
theorem test_exec_encodeMixed :
    resultOf (exec (.encodeMixed true 1030 0xFE828F5C28F5C) idleBlock) = some 0xC06FE828F5C28F5C := by decide +kernel
/-- V30: 52 integer digits are not clamped. -/
theorem test_exec_encodeMixed_greatest :
    resultOf (exec (.encodeMixed false 1074 0xFFFFFFFFFFFFF) idleBlock) = some 0x432FFFFFFFFFFFFF := by decide +kernel
/-- V33: 53 integer digits are clamped. -/
theorem test_exec_encodeClamp_least :
    resultOf (exec (.encodeClamp true 1075 1) idleBlock) = some 0xFFE0000000000001 := by decide +kernel
/-- V41. -/
theorem test_exec_encodeClamp_greatest :
    resultOf (exec (.encodeClamp false 2046 0xFFFFFFFFFFFFF) idleBlock) = some 0x7FEFFFFFFFFFFFFF := by decide +kernel

/-! ## One edge (95_test_vectors.md section 2.10) -/

/-- RESET (busy): BUSY and RESULT_VALID fall, an offer at that edge is ignored. -/
theorem test_step_reset :
    (match step (block 1 2 true false [⟨true, true, 3⟩] 5 []) with
      | .next t => some (t.busy, t.resultValid, t.inReady, t.outValid)
      | .fault _ => none
      | .refused _ => none) = some (false, false, true, false) := by decide +kernel
/-- ACCEPT over a held result. -/
theorem test_step_accept :
    wrapperOf (step (block 1 2 false true [⟨false, true, 0x7FF0000000000001⟩] 0 [1])) =
      some (true, false, 0x7FF0000000000001) := by decide +kernel
/-- HOLD (busy), offer ignored. -/
theorem test_step_hold_busy :
    wrapperOf (step (block 0x3FC999999999999A 7 true false [⟨false, true, 0x4000000000000000⟩] 1 [])) =
      some (true, false, 0x3FC999999999999A) := by decide +kernel
/-- COMPLETE: the offer at the same edge is not accepted. -/
theorem test_step_complete :
    nextOf (step (block 0x3FC999999999999A 7 true false [⟨false, true, 0x4000000000000000⟩] 0 [])) =
      some { block 0x3FC999999999999A 0x3FC999999999999A false true [] 0 [] with edge := 1 } := by decide +kernel
/-- HOLD (result held). -/
theorem test_step_hold_result :
    nextOf (step (block 1 2 false true [⟨false, false, 9⟩] 0 [])) =
      some { block 1 2 false true [] 0 [] with edge := 1 } := by decide +kernel
/-- LATENCY 0: ACCEPT and COMPLETE in one edge, the effects of COMPLETE winning (R92). -/
theorem test_step_merged :
    wrapperOf (step (block 1 2 false false [⟨false, true, 0x4330000000000000⟩] 0 [0])) =
      some (false, true, 0x4330000000000000) ∧
    resultOf (step (block 1 2 false false [⟨false, true, 0x4330000000000000⟩] 0 [0])) =
      some 0x7FE0000000000000 := by decide +kernel
/-- The first instruction after reset is the word that is placed (log 17). -/
theorem test_first_instruction_after_reset :
    resultOf (step (State.reset.withFetchWord 64 0x4330000000000001)) = some 0x7FE0000000000001 := by decide +kernel
/-- The character view of 0x8000000000000000: '1' in the most significant byte, then '0' (R45, R72). -/
theorem test_character_view :
    (charView 0x8000000000000000).extractLsb' 504 8 = 0x31 ∧ (charView 0x8000000000000000).extractLsb' 496 8 = 0x30 ∧
    (charView 1).extractLsb' 0 8 = 0x31 := by decide +kernel

/-! ## Witnesses: the hypotheses of each statement are met -/

theorem test_witness_DecodeOfEncodeIsTheInstruction :
    (Instr.encodeNan true 1).wellFormed = true ∧ (Instr.encodeNan true 1).isClassRow = true ∧
    (Instr.encodeClamp true 2046 0).wellFormed = true ∧ (Instr.encodeClamp true 2046 0).isClassRow = true := by decide
/-- Both clauses: a busy block at its COMPLETE edge, an idle block with an offer and LATENCY 0. -/
theorem test_witness_StepRunsTheDecodedOperand :
    ((block 5 0 true false [] 0 []).pins.rst = false ∧ (block 5 0 true false [] 0 []).waitEdges = 0 ∧
      (block 5 0 true false [] 0 []).busy = true) ∧
    ((block 0 0 false false [⟨false, true, 5⟩] 0 [0]).pins.rst = false ∧
      (block 0 0 false false [⟨false, true, 5⟩] 0 [0]).busy = false ∧
      (block 0 0 false false [⟨false, true, 5⟩] 0 [0]).pins.inValid = true ∧
      (block 0 0 false false [⟨false, true, 5⟩] 0 [0]).nextLatency = 0) := by decide
theorem test_witness_NanRowGivesNanConst :
    ((1 : BitVec 52) ≠ 0 ∧ (0xFFFFFFFFFFFFF : BitVec 52) ≠ 0) ∧
    (isNan 0x7FF0000000000001 = true ∧ isNan 0xFFFFFFFFFFFFFFFF = true) := by decide
theorem test_witness_InfinityRowsGiveTheirWords :
    classOf 0x7FF0000000000000 = .pinf ∧ classOf 0xFFF0000000000000 = .ninf := by decide
theorem test_witness_SubnormalRowLeftAlignsMantissa : (1 : BitVec 52) ≠ 0 ∧ (0xFFFFFFFFFFFFF : BitVec 52) ≠ 0 := by decide
theorem test_witness_FractionRowGivesItsWord :
    (1 ≤ (1 : BitVec 11).toNat ∧ (1 : BitVec 11).toNat ≤ 1022) ∧
    (1 ≤ (1022 : BitVec 11).toNat ∧ (1022 : BitVec 11).toNat ≤ 1022) := by decide
theorem test_witness_MixedRowGivesItsWord :
    (1023 ≤ (1023 : BitVec 11).toNat ∧ (1023 : BitVec 11).toNat ≤ 1074) ∧
    (1023 ≤ (1074 : BitVec 11).toNat ∧ (1074 : BitVec 11).toNat ≤ 1074) := by decide
theorem test_witness_ClampRowForcesExponent2046 :
    (1075 ≤ (1075 : BitVec 11).toNat ∧ (1075 : BitVec 11).toNat ≤ 2046) ∧
    (1075 ≤ (2046 : BitVec 11).toNat ∧ (2046 : BitVec 11).toNat ≤ 2046) := by decide
theorem test_witness_RowsWriteOnlyResultBusyValid :
    exec (.encodeNan true 1) idleBlock = .next (idleBlock.complete nanConst) := by rfl
theorem test_witness_AbsValueIsTheOperandsMagnitude :
    (1 ≤ (1 : BitVec 11).toNat ∧ (1 : BitVec 11).toNat ≤ 2046) ∧
    (1 ≤ (2046 : BitVec 11).toNat ∧ (2046 : BitVec 11).toNat ≤ 2046) := by decide
/-- Clauses on `I != 0`, `I = 0`. -/
theorem test_witness_IntDigitsAreTheNumeral : (1 : Nat) ≠ 0 ∧ intDigits 6 = [true, true, false] ∧ intDigits 0 = [] := by decide
theorem test_witness_IntExpandKeepsTheTop53 :
    magFloor (2 ^ 52 * magOne) = 2 ^ 52 ∧ (intExpand (2 ^ 52)).n = 53 ∧ magFloor (2 ^ 51 * magOne) = 2 ^ 51 ∧
    (intExpand (2 ^ 51)).n = 52 ∧ (intExpand (2 ^ 60)).n = 53 := by decide +kernel
theorem test_witness_IntegerDigitsInOperandFields :
    intExpand (magFloor (absValue 1022 0)) = ⟨[], 0⟩ ∧ intExpand (magFloor (absValue 1023 0)) = ⟨[true], 1⟩ ∧
    (intExpand (magFloor (absValue 1074 1))).n = 52 ∧ (intExpand (magFloor (absValue 1075 1))).n = 53 ∧
    (intExpand (magFloor (absValue 2046 1))).n = 53 ∧ (intDigits (magFloor (absValue 2046 1))).length = 1024 := by
  decide +kernel
/-- The remainders 0, 1 unit and 1 minus one unit, and the digits of 0.75. -/
theorem test_witness_FractionDigitsAreTheExpansion :
    0 < magOne ∧ 1 < magOne ∧ magOne - 1 < magOne ∧ (fracExpand (3 * 2 ^ 1072) 0).FD = [true, true] := by decide +kernel
theorem test_witness_FractionLoopEndsAtZeroRemainder :
    (fracExpand 0 0).FD.length = 0 ∧ (fracExpand 1 0).FD.length = 1074 ∧ remainderAfter 1 1073 ≠ 0 := by decide +kernel
theorem test_witness_ShiftCountsLeadingZeros :
    (fracExpand 0 0).shift = 0 ∧ (fracExpand (2 ^ 1073) 0).shift = 0 ∧ (fracExpand 1 0).shift = -1073 := by decide +kernel
theorem test_witness_FirstOneLocatesTheRemainder :
    (1 < magOne ∧ (1 : Nat) ≠ 0 ∧ firstOne (fracExpand 1 0).shift = 1074) ∧
    (2 ^ 1073 < magOne ∧ firstOne (fracExpand (2 ^ 1073) 0).shift = 1) := by decide +kernel
/-- One finite operand of each class, at a boundary. -/
theorem test_witness_ExponentByOperandClass :
    isFinite 0 = true ∧ isFinite 0x000FFFFFFFFFFFFF = true ∧ (localsOf 1).exp_raw = -51 ∧
    (localsOf 0x000FFFFFFFFFFFFF).exp_raw = 0 ∧ (localsOf 0x0010000000000000).exp = 1 ∧
    (localsOf 0x3FEFFFFFFFFFFFFF).exp = 1022 ∧ (localsOf 0x3FF0000000000000).exp = 1023 ∧
    (localsOf 0x432FFFFFFFFFFFFF).exp = 1074 ∧ (localsOf 0x7FEFFFFFFFFFFFFF).exp = 2046 := by decide +kernel
/-- Zero of either sign; 0.5 and the word below 1. -/
theorem test_witness_ZeroForceExactlyForZero :
    (isFinite 0x8000000000000000 = true ∧ wordAbs 0x8000000000000000 = 0) ∧
    (isFinite 0x3FE0000000000000 = true ∧ magOne ≤ 2 * wordAbs 0x3FE0000000000000 ∧
      wordAbs 0x3FE0000000000000 < magOne) ∧
    (magOne ≤ 2 * wordAbs 0x3FEFFFFFFFFFFFFF ∧ wordAbs 0x3FEFFFFFFFFFFFFF < magOne) := by decide +kernel
theorem test_witness_ClampReplacesTheExponent :
    (isFinite 0x4330000000000000 = true ∧ (localsOf 0x4330000000000000).n = 53) ∧
    (isFinite 0x7FE0000000000000 = true ∧ (localsOf 0x7FE0000000000000).n = 53) ∧
    (localsOf 0x432FFFFFFFFFFFFF).n = 52 := by decide +kernel
theorem test_witness_NoOneDigitOutsideTheWindow :
    (isFinite 0x3FF0000000000001 = true ∧ (localsOf 0x3FF0000000000001).n = 1) ∧
    (isFinite 1 = true ∧ (localsOf 1).n = 0) := by decide +kernel
/-- The least and the greatest magnitude, zero, and both ends of `p1` and `n0` (R28). -/
theorem test_witness_TransactionLocalsStayInRange :
    isFinite 1 = true ∧ (localsOf 1).p1 = some 1074 ∧ (localsOf 0).p1 = none ∧
    (localsOf 0x7FEFFFFFFFFFFFFF).n0 = 1024 ∧ (localsOf 1).a = 1 ∧ (localsOf 0).a = 0 ∧
    (localsOf 0x7FEFFFFFFFFFFFFF).a = (2 ^ 53 - 1) * 2 ^ 971 * magOne ∧
    (localsOf 0x7FEFFFFFFFFFFFFF).I = (2 ^ 53 - 1) * 2 ^ 971 := by decide +kernel
theorem test_witness_ResultBitsAreTheDigits : (0 : Nat) < 64 ∧ (63 : Nat) < 64 ∧ isFinite 3 = true := by decide
theorem test_witness_SignDigitComesFirst : isFinite 0x8000000000000001 = true ∧ isFinite 0xC330000000000001 = true := by decide
theorem test_witness_SignSymmetry : isNan 0x7FF0000000000000 = false ∧ isNan 0x7FF0000000000001 = true := by decide
/-- Both clauses at their bounds. -/
theorem test_witness_RoundTripOnItsTrueDomain :
    (expField 0x0010000000000000).toNat = 1 ∧ (expField 0x4320000000000000).toNat = 1074 ∧
    (expField 0x7FE0000000000000).toNat = 2046 ∧ (expField 0x4330000000000000).toNat = 1075 ∧
    (expField 0x7FD0000000000000).toNat = 2045 := by decide
theorem test_witness_ReservedExponentPatterns : classOf 0x4330000000000000 = .clamp := by decide
theorem test_witness_EncodeIsNotInjective :
    (isNan 0x7FF8000000000000 = true ∧ isNan 0xFFFFFFFFFFFFFFFF = true) ∧
    (classOf 0x4330000000000000 = .clamp ∧ classOf 0x7FE0000000000000 = .clamp ∧
      signField 0x4330000000000000 = signField 0x7FE0000000000000 ∧
      fracField 0x4330000000000000 = fracField 0x7FE0000000000000) ∧
    ((0 : Nat) < 52 ∧ (51 : Nat) < 52) ∧ ((3 : Nat) ≠ 0 ∧ 2 * 3 < 2 ^ 52) := by decide
theorem test_witness_CharacterViewOfTheResult :
    (block 3 (encodeBits 3) false true [] 0 []).resultValid = true ∧
    (block 3 (encodeBits 3) false true [] 0 []).result = encodeBits 3 ∧ (0 : Nat) < 64 ∧ (63 : Nat) < 64 :=
  ⟨rfl, rfl, by decide, by decide⟩
theorem test_witness_ResetClearsBusyAndValid :
    (block 1 2 true false [⟨true, true, 3⟩] 5 []).pins.rst = true ∧ (PortInputs.mk true true 3).rst = true ∧
    (PortInputs.mk true false 0).rst = true := by decide
theorem test_witness_AcceptLatchesTheOperand :
    ((block 1 2 false true [⟨false, true, 9⟩] 0 [1]).pins.rst = false ∧
      (block 1 2 false true [⟨false, true, 9⟩] 0 [1]).inReady = true ∧
      (block 1 2 false true [⟨false, true, 9⟩] 0 [1]).pins.inValid = true ∧
      (block 1 2 false true [⟨false, true, 9⟩] 0 [1]).nextLatency ≠ 0) ∧
    wrapperOf (step (block 1 2 true false [⟨false, true, 9⟩] 1 [])) = some (true, false, 1) := by decide +kernel
/-- Each clause; the last with an edge to hold and LATENCY's end at its bound. -/
theorem test_witness_CompleteDeliversTheResult :
    ((block 3 0 true false [⟨false, true, 9⟩] 0 []).pins.rst = false ∧ (block 3 0 true false [] 0 []).waitEdges = 0) ∧
    ((block 0 0 false false [⟨false, true, 3⟩] 0 [0]).pins.inValid = true ∧
      (block 0 0 false false [⟨false, true, 3⟩] 0 [0]).nextLatency = 0) ∧
    ((block 3 0 true false [⟨false, false, 0⟩, ⟨false, true, 1⟩] 1 []).busy = true ∧
      ∀ p ∈ (block 3 0 true false [⟨false, false, 0⟩, ⟨false, true, 1⟩] 1 []).inputs.take 2, p.rst = false) := by decide
theorem test_witness_HoldAndIgnoredOffers :
    ((block 1 2 false true [⟨false, false, 9⟩] 0 []).pins.rst = false ∧
      (block 1 2 false true [⟨false, false, 9⟩] 0 []).pins.inValid = false) ∧
    ((block 1 2 true false [⟨false, true, 9⟩] 1 []).pins.rst = false ∧
      (block 1 2 true false [⟨false, true, 9⟩] 1 []).waitEdges ≠ 0) ∧
    ((PortInputs.mk false true 9).rst = false ∧ (PortInputs.mk false false 0).rst = false) := by decide
theorem test_witness_ResetDiscardsTheTransaction :
    (block 1 2 true false [⟨true, true, 3⟩, ⟨false, false, 0⟩] 5 []).busy = true ∧
    (block 1 2 true false [⟨true, true, 3⟩, ⟨false, false, 0⟩] 5 []).pins.rst = true ∧
    (∀ p ∈ (block 1 2 true false [⟨true, true, 3⟩, ⟨false, false, 0⟩] 5 []).inputs.tail.take 1, p.inValid = false) := by
  decide
/-- The invariant's premise, valid and not valid, with a step that answers. -/
theorem test_witness_StepKeepsTheWrapperInvariant :
    (block 3 (encodeBits 3) false true [] 0 []).Inv ∧ (block 3 0 true false [] 0 []).Inv ∧
    resultOf (step (block 3 0 true false [] 0 [])) = some 0x0008000000000000 :=
  ⟨⟨by decide, fun _ => rfl⟩, ⟨by decide, fun h => nomatch h⟩, by decide +kernel⟩
theorem test_witness_ValidResultIsOfTheLastAccepted :
    (match runEdges 1 (block 0 0 false false [⟨false, true, 3⟩] 0 [0]) with
      | .next t => t.resultValid
      | .fault _ => false
      | .refused _ => false) = true := by decide +kernel
/-- An offer to an idle block, with LATENCY 0 and with LATENCY 2. -/
theorem test_witness_OfferedWordIsEncoded :
    (block 0 0 false false [⟨false, true, 3⟩] 0 [0]).OffersToIdle 3 ∧
    (block 0 0 false false [⟨false, true, 3⟩, ⟨false, true, 4⟩, ⟨false, false, 0⟩] 0 [2]).OffersToIdle 3 :=
  ⟨⟨rfl, rfl, rfl, by unfold noReset; decide⟩, ⟨rfl, rfl, rfl, by unfold noReset; decide⟩⟩
theorem test_witness_ResultDependsOnTheOperandAlone :
    (block 7 8 false true [⟨false, true, 3⟩] 0 [0]).OffersToIdle 3 ∧
    (block 0 0 false false [⟨false, true, 3⟩, ⟨false, true, 4⟩] 0 [1]).OffersToIdle 3 :=
  ⟨⟨rfl, rfl, rfl, by unfold noReset; decide⟩, ⟨rfl, rfl, rfl, by unfold noReset; decide⟩⟩
theorem test_witness_ResultStaysUntilAcceptOrReset :
    (block 3 5 false true [⟨false, false, 9⟩, ⟨false, true, 1⟩] 0 []).resultValid = true ∧
    (∀ p ∈ (block 3 5 false true [⟨false, false, 9⟩, ⟨false, true, 1⟩] 0 []).inputs.take 1,
      p.rst = false ∧ p.inValid = false) := by decide
theorem test_witness_FinishedRunIsFinal :
    (block 3 5 false true [⟨false, false, 9⟩] 0 []).Final ∧ noReset (block 3 5 false true [⟨false, false, 9⟩] 0 []).inputs :=
  ⟨⟨rfl, by unfold noOffer; decide⟩, by unfold noReset; decide⟩
theorem test_witness_InstancesShareNothing :
    [idleBlock, block 1 2 false true [] 0 []][1]? = some (block 1 2 false true [] 0 []) ∧ (0 : Nat) ≠ 1 := by decide

end Sys2Proof.Tests
end

section
/-! SUPPORT. The two forms of a result (R70): the digits of ENCODE in parts, and the fields of the word they spell. -/

namespace Sys2Proof.Machine

/-! ## The bit form of 64 digits -/

theorem toNat_bitForm {S : Digits} (h : S.length = 64) : (bitForm S).toNat = val S := by
  rw [bitForm, BitVec.toNat_ofNat, Nat.mod_eq_of_lt (h ▸ val_lt S)]

/-- The digit at position `p` is bit `63 - p` of the bit form (R70). -/
theorem getElem?_eq_getLsbD_bitForm {S : Digits} (h : S.length = 64) {p : Nat} (hp : p < 64) :
    S[p]? = some ((bitForm S).getLsbD (63 - p)) := by
  have hS : S = bin 64 (val S) := h ▸ (bin_val S).symm
  calc S[p]? = (bin 64 (val S))[p]? := by rw [← hS]
    _ = some ((val S).testBit (63 - p)) := getElem?_bin 64 (val S) p hp
    _ = some ((bitForm S).getLsbD (63 - p)) := by rw [BitVec.getLsbD, toNat_bitForm h]

/-! ## Finite and other operands -/

theorem isFinite_iff (w : Word) : isFinite w = true ↔ (expField w).toNat ≠ 2047 := by
  rw [isFinite, bne_iff_ne, ne_eq, expField_eq_2047]

theorem encodeSeq_of_isFinite {w : Word} (h : isFinite w = true) : encodeSeq w = (localsOf w).OUTSEQ := by
  have he : expField w ≠ 2047 := by simpa [isFinite] using h
  have hc : classify (signField w) (expField w) (fracField w) = .finite := by
    simp only [classify, he, false_and, if_false]
  rw [encodeSeq, hc]
  rfl

theorem encodeSeq_of_not_isFinite {w : Word} (h : isFinite w = false) :
    encodeSeq w = nanConst ∨ encodeSeq w = pinfConst ∨ encodeSeq w = ninfConst := by
  have he : expField w = 2047 := by simpa [isFinite] using h
  by_cases hf : fracField w = 0#52
  · cases hs : signField w
    · exact .inr (.inl (by simp [encodeSeq, classify, he, hf, hs]))
    · exact .inr (.inr (by simp [encodeSeq, classify, he, hf, hs]))
  · exact .inl (by simp [encodeSeq, classify, he, hf])

theorem length_intExpand_ID_le (I : Nat) : (intExpand I).ID.length ≤ 53 := by
  rw [intExpand_eq]
  exact List.length_take_le _ _

/-- Sign digit, exponent digits, and the mantissa digits padded with 0 to 52 (R179, R180). -/
theorem localsOf_OUTSEQ (w : Word) :
    (localsOf w).OUTSEQ = (localsOf w).sign ::
      (bin 11 (localsOf w).exp ++ ((localsOf w).M ++ zeros (52 - (localsOf w).M.length))) :=
  assemble_eq (length_intExpand_ID_le _) _ _ _

theorem length_localsOf_M_padded (w : Word) :
    ((localsOf w).M ++ zeros (52 - (localsOf w).M.length)).length = 52 := by
  have hM : (localsOf w).M.length ≤ 52 := length_mantissaDigits_le (length_intExpand_ID_le _) _ _
  rw [List.length_append, length_zeros, Nat.add_sub_cancel' hM]

theorem length_encodeSeq (w : Word) : (encodeSeq w).length = 64 := by
  cases h : isFinite w
  · rcases encodeSeq_of_not_isFinite h with h | h | h <;> rw [h] <;> decide
  · rw [encodeSeq_of_isFinite h]
    exact length_assemble (length_intExpand_ID_le _) _ _ _

/-- The result of a finite operand by its fields (R69, R70). -/
theorem encodeBits_of_isFinite {w : Word} (h : isFinite w = true) :
    encodeBits w = packFields (localsOf w).sign (BitVec.ofNat 11 (localsOf w).exp)
      (BitVec.ofNat 52 (val ((localsOf w).M ++ zeros (52 - (localsOf w).M.length)))) := by
  have hbin := bin_val ((localsOf w).M ++ zeros (52 - (localsOf w).M.length))
  rw [length_localsOf_M_padded] at hbin
  rw [encodeBits, encodeSeq_of_isFinite h, localsOf_OUTSEQ, ← bitForm_fields, hbin]

theorem expField_encodeBits_of_not_isFinite {w : Word} (h : isFinite w = false) :
    expField (encodeBits w) = 2047 := by
  rcases encodeSeq_of_not_isFinite h with h | h | h <;> rw [encodeBits, h] <;> decide

end Sys2Proof.Machine
end

section
/-! SUPPORT. The exponent field (R171 to R176) by the length of the magnitude, and by the operand's exponent field. -/

namespace Sys2Proof.Machine

/-! ## `bitlen` of scaled numbers -/

theorem bitlen_div_two_pow (x k : Nat) : bitlen (x / 2 ^ k) = bitlen x - k := by
  refine eq_of_forall_le_iff fun c => ?_
  cases c with
  | zero => simp
  | succ c =>
    rw [bitlen_ge, Nat.le_div_iff_mul_le (by positivity), ← Nat.pow_add, ← bitlen_ge]
    omega

theorem bitlen_le_of_lt_two_pow {x k : Nat} (h : x < 2 ^ k) : bitlen x ≤ k := by
  by_contra hc
  exact absurd (bitlen_ge.1 (Nat.lt_of_not_le hc)) (Nat.not_le.2 h)

theorem bitlen_absValue_of_ne_zero {e : BitVec 11} (he : e.toNat ≠ 0) (f : BitVec 52) :
    bitlen (absValue e f) = e.toNat + 52 := by
  have hf := f.isLt
  have he0 : e ≠ 0 := fun h => he (eq_zero_iff_toNat.1 h)
  obtain ⟨k, hk⟩ := Nat.exists_eq_succ_of_ne_zero he
  rw [absValue, if_neg he0, hk, Nat.succ_sub_one]
  apply bitlen_eq (by omega)
  · rw [show k.succ + 52 - 1 = 52 + k by omega, Nat.pow_add]
    exact Nat.mul_le_mul_right _ (by omega)
  · rw [show k.succ + 52 = 53 + k by omega, Nat.pow_add]
    exact Nat.mul_lt_mul_of_pos_right (by omega) (by positivity)

theorem bitlen_absValue_le_of_eq_zero {e : BitVec 11} (he : e.toNat = 0) (f : BitVec 52) :
    bitlen (absValue e f) ≤ 52 := by
  rw [absValue, if_pos (eq_zero_iff_toNat.2 he)]
  exact bitlen_le_of_lt_two_pow f.isLt

/-! ## The exponent field by its forces -/

theorem exponentField_nil (sh : Int) : exponentField 0 [] sh = 0 := by simp [exponentField, isZero]

/-- No integer digit: `exp_raw`, with the negative force (R174). -/
theorem exponentField_of_no_integer {FD : Digits} (h : FD.length ≠ 0) (sh : Int) :
    exponentField 0 FD sh = (1022 + sh).toNat := by
  have hraw : expRaw 0 sh = 1022 + sh := by simp [expRaw, intEmpty, bias]; ring
  have hz : isZero 0 FD = false := by simpa [isZero] using h
  rw [exponentField, hz, hraw]
  by_cases hneg : 1022 + sh < 0
  · simp [negativeForce, hneg, Int.toNat_of_nonpos hneg.le]
  · simp [negativeForce, hneg, clampForce, intCap]

/-- With `n` integer digits: the clamp at 53 of them (R175), otherwise `exp_raw`, which is `n + 1022` (R171). -/
theorem exponentField_of_integer {n : Nat} (h : n ≠ 0) (FD : Digits) (sh : Int) :
    exponentField n FD sh = if n = 53 then 2046 else n + 1022 := by
  have hraw : expRaw n sh = ((n + 1022 : Nat) : Int) := by simp [expRaw, intEmpty, bias, h]; ring
  have hneg : negativeForce ((n + 1022 : Nat) : Int) = false := by
    simp only [negativeForce, decide_eq_false_iff_not]; omega
  have hz : isZero n FD = false := by simp [isZero, h]
  rw [exponentField, hz, hraw, hneg]
  simp only [Bool.false_eq_true, if_false, clampForce, intCap, beq_iff_eq, clampExp, Int.toNat_natCast]

theorem intExpand_n (a : Nat) : (intExpand (magFloor a)).n = min 53 (bitlen a - 1074) := by
  rw [intExpand_eq, magFloor, magOne, unitBits_eq, bitlen_div_two_pow]

/-- The exponent field depends on the length of the magnitude alone: 2046 from 53 integer digits on (R175), otherwise
the length less 52, and 0 where that is negative (R173, R174). -/
theorem exponentField_of_magnitude (a : Nat) :
    let ip := intExpand (magFloor a); let fp := fracExpand (magFraction a) ip.n
    exponentField ip.n fp.FD fp.shift = if 1127 ≤ bitlen a then 2046 else bitlen a - 52 := by
  intro ip fp
  have hn : ip.n = min 53 (bitlen a - 1074) := intExpand_n a
  by_cases hb : bitlen a ≤ 1074
  · have hn0 : ip.n = 0 := by omega
    have hlt : a < magOne := by
      rw [magOne, unitBits_eq]
      exact Nat.lt_of_not_le fun h => absurd (bitlen_ge.2 h) (by omega)
    have hfr : magFraction a = a := Nat.mod_eq_of_lt hlt
    rw [hn0, if_neg (by omega)]
    by_cases ha : a = 0
    · have hr : magFraction a = 0 := hfr.trans ha
      have hFD : fp.FD = [] := by simp only [fp, fracExpand, hr, fracLoop_zero_remainder]
      rw [hFD, exponentField_nil, ha]
      rfl
    · have hFD : fp.FD.length ≠ 0 :=
        (List.length_pos_of_mem (fracExpand_has_one (by rwa [hfr]) ip.n)).ne'
      have hsh : fp.shift = bitlen (magFraction a) - unitBits := fracExpand_shift_eq (by rwa [hfr]) ip.n
      rw [exponentField_of_no_integer hFD, hsh, hfr, unitBits_eq]
      omega
  · rw [exponentField_of_integer (by omega), hn]
    split_ifs <;> omega

/-- `exp` by the operand's exponent field (R176): the field itself below 1075, the clamp's 2046 from there on (R175). -/
theorem localsOf_exp (w : Word) :
    (localsOf w).exp = if 1075 ≤ (expField w).toNat then 2046 else (expField w).toNat := by
  have h : (localsOf w).exp = if 1127 ≤ bitlen (wordAbs w) then 2046 else bitlen (wordAbs w) - 52 :=
    exponentField_of_magnitude (wordAbs w)
  rw [h]
  by_cases he : (expField w).toNat = 0
  · have hb : bitlen (wordAbs w) ≤ 52 := bitlen_absValue_le_of_eq_zero he _
    split_ifs <;> omega
  · have hb : bitlen (wordAbs w) = (expField w).toNat + 52 := bitlen_absValue_of_ne_zero he _
    split_ifs <;> omega

theorem localsOf_exp_lt (w : Word) : (localsOf w).exp < 2 ^ 11 := by
  rw [localsOf_exp]
  split_ifs <;> omega

theorem toNat_expField_encodeBits_of_isFinite {w : Word} (h : isFinite w = true) :
    (expField (encodeBits w)).toNat = (localsOf w).exp := by
  rw [encodeBits_of_isFinite h, expField_packFields, BitVec.toNat_ofNat, Nat.mod_eq_of_lt (localsOf_exp_lt w)]

theorem toNat_fracField_encodeBits_of_isFinite {w : Word} (h : isFinite w = true) :
    (fracField (encodeBits w)).toNat = val ((localsOf w).M ++ zeros (52 - (localsOf w).M.length)) := by
  have hlt := val_lt ((localsOf w).M ++ zeros (52 - (localsOf w).M.length))
  rw [length_localsOf_M_padded] at hlt
  rw [encodeBits_of_isFinite h, fracField_packFields, BitVec.toNat_ofNat, Nat.mod_eq_of_lt hlt]

/-- The exponent field of every result by that of its operand (R112, R175, R176). -/
theorem toNat_expField_encodeBits (w : Word) :
    (expField (encodeBits w)).toNat =
      if 1075 ≤ (expField w).toNat ∧ (expField w).toNat ≤ 2046 then 2046 else (expField w).toNat := by
  have hlt := (expField w).isLt
  cases h : isFinite w
  · have he : (expField w).toNat = 2047 := by simpa [h] using isFinite_iff w
    rw [expField_encodeBits_of_not_isFinite h, he]
    rfl
  · have he := (isFinite_iff w).1 h
    rw [toNat_expField_encodeBits_of_isFinite h, localsOf_exp]
    split_ifs <;> omega

/-! ## Classes by the exponent field -/

theorem classOf_zero_or_subnormal_iff (w : Word) :
    classOf w = .zero ∨ classOf w = .subnormal ↔ (expField w).toNat = 0 := by
  simp only [classOf_iff]
  tauto

theorem classOf_special_iff (w : Word) :
    classOf w = .nan ∨ classOf w = .pinf ∨ classOf w = .ninf ↔ (expField w).toNat = 2047 := by
  simp only [classOf_iff]
  cases signField w <;> tauto

/-! ## The statements -/

/-- Settles O32: bits and value of any 64 digits, and the fields of a finite operand's result. -/
theorem resultBitsAreTheDigits : Obligations.ResultBitsAreTheDigits := by
  intro w
  have hlen := length_encodeSeq w
  refine ⟨fun p hp => getElem?_eq_getLsbD_bitForm hlen hp, toNat_bitForm hlen, fun h => ⟨?_, ?_, ?_⟩⟩
  · rw [encodeBits_of_isFinite h, signField_packFields]
  · exact toNat_expField_encodeBits_of_isFinite h
  · exact toNat_fracField_encodeBits_of_isFinite h

/-- Settles O37: the exponent fields 0 and 2047 are those operands' own, and the clamp gives 2046. -/
theorem reservedExponentPatterns : Obligations.ReservedExponentPatterns := by
  intro w
  have hexp := toNat_expField_encodeBits w
  refine ⟨?_, ?_, fun hc => BitVec.eq_of_toNat_eq ?_⟩
  · rw [classOf_zero_or_subnormal_iff, eq_zero_iff_toNat]
    split_ifs at hexp <;> omega
  · rw [classOf_special_iff, expField_eq_2047]
    split_ifs at hexp <;> omega
  · rw [hexp, if_pos ((classOf_iff w .clamp).1 hc)]
    rfl

end Sys2Proof.Machine
end

section
/-! SUPPORT. Runs without an offer and without reset: an idle block holds its registers (R97), so its outputs stay (R99). -/

namespace Sys2Proof.Machine

/-! ## Edges without an offer -/

/-- A run whose first edge offers nothing sees `in_valid = 0` at that edge, past the listed inputs too (log 1). -/
theorem inValid_of_noOffer {s : State} {k : Nat} (h : noOffer (s.inputs.take (k + 1))) : s.pins.inValid = false := by
  cases hi : s.inputs with
  | nil => rw [State.pins_of_nil s hi]; rfl
  | cons p ps =>
    rw [State.pins_of_cons s p ps hi]
    exact h p (by simp [hi])

/-- The edges after the first of a run without an offer are a run without an offer. -/
theorem noOffer_tail {l : List PortInputs} {k : Nat} (h : noOffer (l.take (k + 1))) : noOffer (l.tail.take k) := by
  intro p hp
  have hp' : p ∈ (l.take (k + 1)).tail := by rwa [List.tail_take_eq_take_tail]
  exact h p (List.mem_of_mem_tail hp')

/-! ## The idle block -/

theorem State.SameRegisters.trans {s t u : State} (hst : s.SameRegisters t) (htu : t.SameRegisters u) : s.SameRegisters u := by
  obtain ⟨ho, hr, hb, hv⟩ := hst
  obtain ⟨ho', hr', hb', hv'⟩ := htu
  exact ⟨ho.trans ho', hr.trans hr', hb.trans hb', hv.trans hv'⟩

theorem State.sameRegisters_hold (s : State) : s.SameRegisters s.hold := ⟨rfl, rfl, rfl, rfl⟩

/-- An idle block that is offered nothing and not reset holds at every edge, so its registers stay (R97, R99). -/
theorem runEdges_of_idle {k : Nat} {s : State} (hb : s.busy = false) (hr : noReset (s.inputs.take k))
    (ho : noOffer (s.inputs.take k)) : ∃ t, runEdges k s = .next t ∧ s.SameRegisters t := by
  induction k generalizing s with
  | zero => exact ⟨s, rfl, rfl, rfl, rfl, rfl⟩
  | succ k ih =>
    have hstep : step s = .next s.hold :=
      step_of_hold (edgeStep_of_no_offer (rst_of_noReset hr) hb (inValid_of_noOffer ho))
    obtain ⟨t, hrun, hsame⟩ := ih (s := s.hold) hb (noReset_tail hr) (noOffer_tail ho)
    exact ⟨t, (runEdges_succ_of_step hstep k).trans hrun, s.sameRegisters_hold.trans hsame⟩

/-! ## The output ports of a valid result (R27) -/

theorem State.outBits_of_valid {s : State} (h : s.resultValid = true) : s.outBits = s.result := if_pos h

theorem State.outChars_of_valid {s : State} (h : s.resultValid = true) : s.outChars = charView s.result := if_pos h

/-! ## The statement -/

/-- Settles O52: the idle block's registers stay, and the ports show a valid RESULT. -/
theorem resultStaysUntilAcceptOrReset : Obligations.ResultStaysUntilAcceptOrReset := by
  intro s k hvalid hbusy _ hreset hoffer
  obtain ⟨t, hrun, -, hresult, hbusy', hvalid'⟩ := runEdges_of_idle hbusy hreset hoffer
  have ht : t.resultValid = true := hvalid'.symm.trans hvalid
  have hready : t.inReady = true := by rw [State.inReady, ← hbusy', hbusy, Bool.not_false]
  exact ⟨t, hrun, ht, hready, hresult ▸ State.outBits_of_valid ht, hresult ▸ State.outChars_of_valid ht⟩

end Sys2Proof.Machine
end

section
/-! SUPPORT. The NaNs: the classifier's first case answers NAN_CONST (R111), whatever the sign and the payload. -/

namespace Sys2Proof.Machine

theorem isNan_iff (w : Word) : isNan w = true ↔ expField w = 2047 ∧ fracField w ≠ 0 := by
  rw [isNan, Bool.and_eq_true, beq_iff_eq, bne_iff_ne]

theorem classify_of_nan (s : Digit) {e : BitVec 11} {f : BitVec 52} (he : e = 2047) (hf : f ≠ 0) :
    classify s e f = .nan := if_pos ⟨he, hf⟩

theorem encodeSeq_of_isNan {w : Word} (h : isNan w = true) : encodeSeq w = nanConst := by
  obtain ⟨he, hf⟩ := (isNan_iff w).1 h
  rw [encodeSeq, classify_of_nan _ he hf]

theorem bitForm_nanConst : bitForm nanConst = 0xFFF8000000000000 := by decide

theorem encodeBits_of_isNan {w : Word} (h : isNan w = true) : encodeBits w = 0xFFF8000000000000 := by
  rw [encodeBits, encodeSeq_of_isNan h, bitForm_nanConst]

/-- The row ENCODE.NAN is the COMPLETE effect (R92) on NAN_CONST (R111). -/
theorem exec_encodeNan (sg : Digit) (f : BitVec 52) (s : State) :
    exec (.encodeNan sg f) s = .next (s.complete nanConst) := rfl

/-! ## The statement -/

/-- Settles O10: the row by its COMPLETE effect on NAN_CONST, the NaN words by the classifier's first case. -/
theorem nanRowGivesNanConst : Obligations.NanRowGivesNanConst := by
  refine ⟨fun sg f s _ => ?_, fun w hw => ⟨encodeSeq_of_isNan hw, encodeBits_of_isNan hw, ?_⟩⟩
  · rw [exec_encodeNan, State.complete, bitForm_nanConst]
  · rw [encodeBits_of_isNan hw]
    exact eq_comm

end Sys2Proof.Machine
end

section
/-! SUPPORT. The sign extractor in the result (R123): the sign digit stands first, and a zero of either sign has 63 digits
0 after it (R113, R173). -/

namespace Sys2Proof.Machine

/-- The sign digit of an operand is its bit 63, by the test on the bit and not on the value (R120). -/
theorem localsOf_sign (w : Word) : (localsOf w).sign = signField w := rfl

theorem localsOf_OUTSEQ_eq_generalPath (w : Word) : (localsOf w).OUTSEQ = generalPath (signField w) (wordAbs w) := rfl

/-- No force of the assembler reaches the first digit (R123). -/
theorem head?_encodeSeq_of_isFinite {w : Word} (h : isFinite w = true) :
    (encodeSeq w).head? = some (localsOf w).sign := by
  rw [encodeSeq_of_isFinite h, localsOf_OUTSEQ, List.head?_cons]

/-! ## The magnitude 0 -/

theorem intExpand_zero : intExpand 0 = ⟨[], 0⟩ := intExpand_eq 0

theorem fracExpand_zero (n : Nat) : fracExpand 0 n = ⟨[], 0⟩ := fracLoop_zero_remainder _ _ _

/-- Neither expander gives a digit, so the zero force (R173) and the padding (R180) fill all but the sign with 0. -/
theorem generalPath_zero (s : Digit) : generalPath s 0 = s :: zeros 63 := by
  have hI : magFloor 0 = 0 := Nat.zero_div _
  have hr : magFraction 0 = 0 := Nat.zero_mod _
  calc generalPath s 0 = assemble s [] [] 0 := by
        simp only [generalPath, signDigit, hI, hr, intExpand_zero, fracExpand_zero]
    _ = s :: (bin 11 (exponentField 0 [] 0) ++ zeros 52) := assemble_eq (Nat.zero_le _) s [] 0
    _ = s :: zeros 63 := by rw [exponentField_nil, bin_zero]; rfl

theorem encodeSeq_of_wordAbs_eq_zero {w : Word} (h : isFinite w = true) (ha : wordAbs w = 0) :
    encodeSeq w = signField w :: zeros 63 := by
  rw [encodeSeq_of_isFinite h, localsOf_OUTSEQ_eq_generalPath, ha, generalPath_zero]

/-! ## The statement -/

/-- Settles O33: the general path puts the sign digit first; negative zero is the operand of sign 1 and magnitude 0. -/
theorem signDigitComesFirst : Obligations.SignDigitComesFirst :=
  ⟨fun w h => ⟨head?_encodeSeq_of_isFinite h, localsOf_sign w⟩,
    encodeSeq_of_wordAbs_eq_zero (w := 0x8000000000000000) (by decide) (by decide)⟩

end Sys2Proof.Machine
end

section
/-! SUPPORT. The integer cut (R133): what INT_EXPAND keeps, and the count after the cut by the length of the numeral and
by the operand. -/

namespace Sys2Proof.Machine

theorem intExpand_ID_eq_take (I : Nat) : (intExpand I).ID = (intDigits I).take 53 := rfl

theorem intExpand_n_eq_min_bitlen (I : Nat) : (intExpand I).n = min (bitlen I) 53 := by
  rw [intExpand_eq, Nat.min_comm]

theorem intExpand_n_eq_53_iff (I : Nat) : (intExpand I).n = 53 ↔ 53 ≤ bitlen I := by
  rw [intExpand_n_eq_min_bitlen, min_eq_right_iff]

theorem succ_le_bitlen_magFloor_iff (k a : Nat) : k + 1 ≤ bitlen (magFloor a) ↔ 2 ^ k * magOne ≤ a := by
  rw [bitlen_ge, magFloor, Nat.le_div_iff_mul_le magOne_pos]

/-! ## The statement -/

/-- Settles O20: the count is the smaller of `bitlen(I)` and 53, and `floor(a)` has 53 digits or more from `a = 2^52` on. -/
theorem intExpandKeepsTheTop53 : Obligations.IntExpandKeepsTheTop53 := by
  refine fun I => ⟨intExpand_ID_eq_take I, intExpand_n_eq_min_bitlen I, intExpand_n_eq_53_iff I, ?_⟩
  rintro a rfl
  rw [intExpand_n_eq_53_iff, ← succ_le_bitlen_magFloor_iff]

end Sys2Proof.Machine
end

section
/-! SUPPORT. The shift counter (R153): when one iteration of FRAC_EXPAND lowers it. What the whole loop leaves in it is
`fracExpand_shift`. -/

namespace Sys2Proof.Machine

@[simp] theorem nextShift_true (seenOne : Digit) (shift : Int) : nextShift true seenOne shift = shift := rfl

@[simp] theorem nextShift_of_seenOne (d : Digit) (shift : Int) : nextShift d true shift = shift := by
  cases d <;> rfl

@[simp] theorem nextShift_leading_zero (shift : Int) : nextShift false false shift = shift - 1 := rfl

/-! ## The statement -/

/-- Settles O24: over the whole loop by `fracExpand_shift`; in one iteration by the digit and by whether a 1 came before. -/
theorem shiftCountsLeadingZeros : Obligations.ShiftCountsLeadingZeros := by
  refine ⟨fracExpand_shift, fun d seenOne shift => ?_⟩
  cases d with
  | true => simp
  | false =>
    cases seenOne with
    | true => simp
    | false => simp

end Sys2Proof.Machine
end

section
/-! SUPPORT. The zero force (R173): no digit on either side exactly for the magnitude 0, and the stages of an operand
without an integer part. -/

namespace Sys2Proof.Machine

/-! ## No integer digit, no fraction digit -/

theorem bitlen_eq_zero_iff (x : Nat) : bitlen x = 0 ↔ x = 0 := by simp [bitlen]

theorem intExpand_n_eq_zero_iff (I : Nat) : (intExpand I).n = 0 ↔ I = 0 := by
  rw [intExpand_n_eq_min_bitlen, ← bitlen_eq_zero_iff I]
  omega

theorem fracExpand_FD_eq_nil_iff (a n : Nat) : (fracExpand (magFraction a) n).FD = [] ↔ magFraction a = 0 := by
  refine ⟨fun h => by_contra fun hr => ?_, fun h => by rw [h, fracExpand_zero]⟩
  exact List.ne_nil_of_mem (fracExpand_has_one hr n) h

theorem isZero_iff (n : Nat) (FD : Digits) : isZero n FD = true ↔ n = 0 ∧ FD = [] := by
  rw [isZero, Bool.and_eq_true, beq_iff_eq, beq_iff_eq, List.length_eq_zero_iff]

/-- A magnitude is 0 exactly when its integer part and its fraction part are. -/
theorem magFloor_and_magFraction_eq_zero_iff (a : Nat) : magFloor a = 0 ∧ magFraction a = 0 ↔ a = 0 := by
  refine ⟨fun ⟨hI, hr⟩ => ?_, ?_⟩
  · calc a = magOne * magFloor a + magFraction a := (Nat.div_add_mod a magOne).symm
      _ = 0 := by rw [hI, hr, Nat.mul_zero]
  · rintro rfl
    exact ⟨Nat.zero_div _, Nat.zero_mod _⟩

/-- The condition of the zero force is `a = 0` (R173). -/
theorem isZero_localsOf_iff (w : Word) : isZero (localsOf w).n (localsOf w).FD = true ↔ wordAbs w = 0 := by
  rw [isZero_iff, ← magFloor_and_magFraction_eq_zero_iff (wordAbs w)]
  exact and_congr (intExpand_n_eq_zero_iff _) (fracExpand_FD_eq_nil_iff _ _)

/-! ## The locals by the magnitude -/

theorem localsOf_n (w : Word) : (localsOf w).n = min 53 (bitlen (wordAbs w) - 1074) := intExpand_n _

theorem localsOf_exp_of_magnitude (w : Word) :
    (localsOf w).exp = if 1127 ≤ bitlen (wordAbs w) then 2046 else bitlen (wordAbs w) - 52 :=
  exponentField_of_magnitude _

theorem localsOf_exp_raw (w : Word) : (localsOf w).exp_raw = expRaw (localsOf w).n (localsOf w).shift := rfl

theorem localsOf_shift_of_lt_one {w : Word} (h0 : wordAbs w ≠ 0) (h : wordAbs w < magOne) :
    (localsOf w).shift = (bitlen (wordAbs w) : Int) - 1074 := by
  have hfr : magFraction (wordAbs w) = wordAbs w := Nat.mod_eq_of_lt h
  have hshift : (localsOf w).shift = (bitlen (magFraction (wordAbs w)) : Int) - unitBits :=
    fracExpand_shift_eq (by rwa [hfr]) _
  rw [hshift, hfr, unitBits_eq]
  rfl

/-- The raw exponent that the zero force replaces (R171, R173). -/
theorem localsOf_exp_raw_of_zero {w : Word} (h : wordAbs w = 0) : (localsOf w).exp_raw = 1022 := by
  have hn : (localsOf w).n = 0 := by rw [localsOf_n, h]; rfl
  have hshift : (localsOf w).shift = 0 := by
    have hr : magFraction (wordAbs w) = 0 := by rw [h, magFraction, Nat.zero_mod]
    change (fracExpand (magFraction (wordAbs w)) _).shift = 0
    rw [hr, fracExpand_zero]
  rw [localsOf_exp_raw, hn, hshift]
  rfl

/-- The first fraction digit of a magnitude from 1/2 to below 1 is a 1: no leading 0 shortens its 1074 digits. -/
theorem bitlen_of_half_to_one {a : Nat} (h1 : magOne ≤ 2 * a) (h2 : a < magOne) : bitlen a = 1074 := by
  have hdouble : bitlen (2 * a) = bitlen a + 1 := by
    have hpos := magOne_pos
    rw [bitlen_half (by omega), Nat.mul_div_cancel_left _ two_pos]
  rw [magOne, unitBits_eq] at h1 h2
  have hge : 1074 + 1 ≤ bitlen (2 * a) := bitlen_ge.2 h1
  have hle : bitlen a ≤ 1074 := bitlen_le_of_lt_two_pow h2
  omega

/-! ## The statement -/

/-- Settles O27: the condition by the two expanders, the locals of `a = 0` and of `1/2 <= a < 1` by the magnitude. -/
theorem zeroForceExactlyForZero : Obligations.ZeroForceExactlyForZero := by
  refine fun w _ => ⟨isZero_localsOf_iff w, fun ha => ⟨?_, localsOf_exp_raw_of_zero ha⟩, fun hhalf hone => ?_⟩
  · rw [localsOf_exp_of_magnitude, ha]
    rfl
  · have hb : bitlen (wordAbs w) = 1074 := bitlen_of_half_to_one hhalf hone
    have h0 : wordAbs w ≠ 0 := fun h => by simp [h, bitlen] at hb
    refine ⟨?_, ?_, ?_⟩
    · rw [localsOf_n, hb]; rfl
    · rw [localsOf_shift_of_lt_one h0 hone, hb]; rfl
    · rw [localsOf_exp_of_magnitude, hb]; rfl

end Sys2Proof.Machine
end

section
/-! SUPPORT. The clamp (R175): which operands have 53 integer digits, and the result that keeps the sign and the mantissa
field under the exponent field 2046. -/

namespace Sys2Proof.Machine

/-! ## The clamped operands -/

theorem localsOf_n_eq_53_iff_magnitude (w : Word) : (localsOf w).n = 53 ↔ 2 ^ 52 * magOne ≤ wordAbs w :=
  (intExpand_n_eq_53_iff _).trans (succ_le_bitlen_magFloor_iff 52 _)

theorem localsOf_n_eq_53_iff_expField (w : Word) : (localsOf w).n = 53 ↔ 1075 ≤ (expField w).toNat := by
  rw [localsOf_n]
  by_cases he : (expField w).toNat = 0
  · have hb : bitlen (wordAbs w) ≤ 52 := bitlen_absValue_le_of_eq_zero he _
    omega
  · have hb : bitlen (wordAbs w) = (expField w).toNat + 52 := bitlen_absValue_of_ne_zero he _
    omega

theorem classOf_eq_clamp_iff {w : Word} (h : isFinite w = true) : classOf w = .clamp ↔ 1075 ≤ (expField w).toNat := by
  have hlt := (expField w).isLt
  have hne := (isFinite_iff w).1 h
  rw [classOf_iff]
  omega

/-- The raw exponent that the clamp replaces (R171, R175). -/
theorem localsOf_exp_raw_of_clamp {w : Word} (h : (localsOf w).n = 53) : (localsOf w).exp_raw = 1075 := by
  rw [localsOf_exp_raw, h]
  rfl

/-! ## The result's fields and magnitude -/

theorem signField_encodeBits_of_isFinite {w : Word} (h : isFinite w = true) : signField (encodeBits w) = signField w := by
  rw [encodeBits_of_isFinite h, signField_packFields, localsOf_sign]

theorem absValue_of_ne_zero {e : BitVec 11} (he : e.toNat ≠ 0) (f : BitVec 52) :
    absValue e f = (2 ^ 52 + f.toNat) * 2 ^ (e.toNat - 1) :=
  if_neg fun h => he (eq_zero_iff_toNat.1 h)

theorem magOne_le_absValue {e : BitVec 11} (he : 1023 ≤ e.toNat) (f : BitVec 52) : magOne ≤ absValue e f := by
  have hb : bitlen (absValue e f) = e.toNat + 52 := bitlen_absValue_of_ne_zero (by omega) f
  rw [magOne, unitBits_eq]
  exact bitlen_ge.1 (by omega)

/-- The 53 most significant digits of a normal operand are the leading 1 and its mantissa field. -/
theorem absValue_top_digits {e : BitVec 11} (he : 1023 ≤ e.toNat) (f : BitVec 52) :
    absValue e f / 2 ^ (bitlen (magFloor (absValue e f)) + unitBits - 53) = 2 ^ 52 + f.toNat := by
  have hcut : bitlen (magFloor (absValue e f)) + unitBits - 53 = e.toNat - 1 := by
    rw [magFloor, magOne, bitlen_div_two_pow, bitlen_absValue_of_ne_zero (by omega), unitBits_eq]
    omega
  rw [hcut, absValue_of_ne_zero (by omega), Nat.mul_div_cancel _ (Nat.two_pow_pos _)]

/-- An operand with an integer part keeps its mantissa field (R178, R183). -/
theorem fracField_encodeBits_of_integer {w : Word} (h : isFinite w = true) (he : 1023 ≤ (expField w).toNat) :
    fracField (encodeBits w) = fracField w := by
  have hM : (localsOf w).M ++ zeros (52 - (localsOf w).M.length) = bin 52 (2 ^ 52 + (fracField w).toNat) :=
    (mantissa_nonempty (magOne_le_absValue he _)).trans (congrArg (bin 52) (absValue_top_digits he _))
  apply BitVec.eq_of_toNat_eq
  rw [toNat_fracField_encodeBits_of_isFinite h, hM, val_bin, Nat.add_mod_left, Nat.mod_eq_of_lt (fracField w).isLt]

theorem expField_encodeBits_of_clamp {w : Word} (h : isFinite w = true) (he : 1075 ≤ (expField w).toNat) :
    expField (encodeBits w) = 2046 := by
  obtain ⟨-, -, hclamp⟩ := reservedExponentPatterns w
  exact hclamp ((classOf_eq_clamp_iff h).2 he)

/-- The exponent field 2046 in place of `e` multiplies the magnitude by `2^(2046 - e)` (R175). -/
theorem wordAbs_encodeBits_of_clamp {w : Word} (h : isFinite w = true) (he : 1075 ≤ (expField w).toNat) :
    wordAbs (encodeBits w) = wordAbs w * 2 ^ (2046 - (expField w).toNat) := by
  have hlt := (expField w).isLt
  have hne := (isFinite_iff w).1 h
  have hsum : (2046 : BitVec 11).toNat - 1 = ((expField w).toNat - 1) + (2046 - (expField w).toNat) := by
    rw [show (2046 : BitVec 11).toNat = 2046 from rfl]; omega
  calc wordAbs (encodeBits w) = absValue 2046 (fracField w) := by
        rw [wordAbs, expField_encodeBits_of_clamp h he, fracField_encodeBits_of_integer h (by omega)]
    _ = (2 ^ 52 + (fracField w).toNat) * 2 ^ ((2046 : BitVec 11).toNat - 1) := absValue_of_ne_zero (by decide) _
    _ = absValue (expField w) (fracField w) * 2 ^ (2046 - (expField w).toNat) := by
        rw [hsum, Nat.pow_add, ← Nat.mul_assoc, absValue_of_ne_zero (by omega)]

/-! ## The statement -/

/-- Settles O28: 53 integer digits by the magnitude and by the exponent field, the clamp's locals, the result by fields. -/
theorem clampReplacesTheExponent : Obligations.ClampReplacesTheExponent := by
  intro w hfin
  refine ⟨localsOf_n_eq_53_iff_magnitude w, ?_, fun hn => ?_⟩
  · rw [localsOf_n_eq_53_iff_expField, classOf_eq_clamp_iff hfin]
  · have he : 1075 ≤ (expField w).toNat := (localsOf_n_eq_53_iff_expField w).1 hn
    have hexp : expField (encodeBits w) = 2046 := expField_encodeBits_of_clamp hfin he
    refine ⟨localsOf_exp_raw_of_clamp hn, ?_, hexp, ?_, signField_encodeBits_of_isFinite hfin,
      wordAbs_encodeBits_of_clamp hfin he⟩
    · rw [localsOf_exp, if_pos he]
    · rw [hexp, eq_comm, ← BitVec.toNat_inj]
      rfl

end Sys2Proof.Machine
end

section
/-! SUPPORT. No stop (R67, R220, R234): every row completes and every edge takes one of the five steps, so `exec` and
`step` answer a next state everywhere. -/

namespace Sys2Proof.Machine

theorem exec_answers_next (i : Instr) (s : State) : ∃ t, exec i s = .next t :=
  let ⟨out, hexec⟩ := exec_is_complete i
  ⟨s.complete out, hexec s⟩

/-- RESET, ACCEPT and HOLD are the effects themselves; the two edges that complete run a row, which answers a next state. -/
theorem step_answers_next (s : State) : ∃ t, step s = .next t := by
  cases h : s.edgeStep with
  | reset => exact ⟨s.takeReset, step_of_reset h⟩
  | accept => exact ⟨s.accept, step_of_accept h⟩
  | acceptAndComplete => exact step_of_acceptAndComplete h ▸ exec_answers_next _ _
  | complete => exact step_of_complete h ▸ exec_answers_next _ _
  | hold => exact ⟨s.hold, step_of_hold h⟩

/-! ## The statement -/

/-- Settles O46: every row by its COMPLETE effect, every edge by the step it takes. -/
theorem nothingEverRaises : Obligations.NothingEverRaises := ⟨exec_answers_next, step_answers_next⟩

end Sys2Proof.Machine
end

section
/-! SUPPORT. The RESET step (R240), and why nothing comes of a transaction it discards (R241): an idle block that is offered
nothing only resets or holds. -/

namespace Sys2Proof.Machine

/-- RESET has priority: whatever the block is doing and whatever is offered, the edge takes its effect (R240). -/
theorem step_of_rst {s : State} (h : s.pins.rst = true) : step s = .next s.takeReset := step_of_reset (edgeStep_of_rst h)

/-- An edge that offers an idle block nothing is RESET or HOLD: neither raises BUSY or RESULT_VALID. -/
theorem step_keeps_idle_of_no_offer {s t : State} (hb : s.busy = false) (hr : s.resultValid = false)
    (ho : s.pins.inValid = false) (h : step s = .next t) :
    t.busy = false ∧ t.resultValid = false ∧ t.inputs = s.inputs.tail := by
  cases hrst : s.pins.rst with
  | true =>
    cases (step_of_rst hrst).symm.trans h
    exact ⟨rfl, rfl, rfl⟩
  | false =>
    cases (step_of_hold (edgeStep_of_no_offer hrst hb ho)).symm.trans h
    exact ⟨hb, hr, rfl⟩

/-- Over any number of edges without an offer, reset or not, an idle block stays idle without a valid result. -/
theorem runEdges_keeps_idle_of_noOffer {k : Nat} {s t : State} (hb : s.busy = false) (hr : s.resultValid = false)
    (ho : noOffer (s.inputs.take k)) (h : runEdges k s = .next t) : t.busy = false ∧ t.resultValid = false := by
  induction k generalizing s with
  | zero => cases h; exact ⟨hb, hr⟩
  | succ k ih =>
    obtain ⟨u, hstep⟩ := step_answers_next s
    obtain ⟨hbu, hru, hinputs⟩ := step_keeps_idle_of_no_offer hb hr (inValid_of_noOffer ho) hstep
    have hrest : noOffer (u.inputs.take k) := hinputs ▸ noOffer_tail ho
    exact ih hbu hru hrest ((runEdges_succ_of_step hstep k).symm.trans h)

/-! ## The statements -/

/-- Settles O45: RESET leaves the block idle without a valid result, and edges without an offer keep it so. -/
theorem resetDiscardsTheTransaction : Obligations.ResetDiscardsTheTransaction := by
  intro s _ hrst
  exact ⟨s.takeReset, step_of_rst hrst, rfl, rfl, fun _ _ _ hoffer hrun =>
    runEdges_keeps_idle_of_noOffer s.takeReset_busy s.takeReset_resultValid hoffer hrun⟩

/-- Settles O41: the edge is RESET whatever is offered, and its effect on BUSY, RESULT_VALID and the inputs reads no port. -/
theorem resetClearsBusyAndValid : Obligations.ResetClearsBusyAndValid := by
  refine ⟨fun s hrst => ⟨s.takeReset, step_of_rst hrst, rfl, rfl, rfl, rfl⟩, fun s p q ps hp hq => ?_⟩
  have hstep : ∀ r : PortInputs, r.rst = true →
      step { s with inputs := r :: ps } = .next (State.takeReset { s with inputs := r :: ps }) :=
    fun _ hr => step_of_rst hr
  exact ⟨_, _, hstep p hp, hstep q hq, rfl, rfl, rfl, rfl⟩

end Sys2Proof.Machine
end

section
/-! SUPPORT. The decoder and the encoder (R60, R65, R67): the class of an encoded word, that decoding and encoding are
inverse, and the rows of the opcode table as classes (R65, R75). -/

namespace Sys2Proof

/-! ## Words by their fields -/

theorem packFields_inj {s t : Digit} {d e : BitVec 11} {f g : BitVec 52} :
    packFields s d f = packFields t e g ↔ s = t ∧ d = e ∧ f = g := by
  refine ⟨fun h => ?_, fun ⟨hs, he, hf⟩ => by rw [hs, he, hf]⟩
  have hs := congrArg signField h
  have he := congrArg expField h
  have hf := congrArg fracField h
  simp only [signField_packFields, expField_packFields, fracField_packFields] at hs he hf
  exact ⟨hs, he, hf⟩

theorem eq_packFields_iff {w : Word} {s : Digit} {e : BitVec 11} {f : BitVec 52} :
    w = packFields s e f ↔ signField w = s ∧ expField w = e ∧ fracField w = f := by
  rw [← packFields_inj, packFields_fields]

theorem bne_zero_iff_toNat {n : Nat} {x : BitVec n} : (x != 0) = true ↔ x.toNat ≠ 0 := by
  rw [bne_iff_ne, ne_eq, eq_zero_iff_toNat]

/-! ## The class of an instruction -/

/-- The operand class of the row an instruction is of; for the undivided row ENCODE, that of its word (R75). -/
def Instr.operandClass : Instr → OperandClass
  | .encode w => classOf w
  | .encodeNan _ _ => .nan
  | .encodePinf => .pinf
  | .encodeNinf => .ninf
  | .encodeZero _ => .zero
  | .encodeSubnormal _ _ => .subnormal
  | .encodeFraction _ _ _ => .fraction
  | .encodeMixed _ _ _ => .mixed
  | .encodeClamp _ _ _ => .clamp

/-- The field constraint of a row puts its encoded words in the row's class (R65). -/
theorem classOf_encode {i : Instr} (h : i.wellFormed = true) : classOf (encode i) = i.operandClass := by
  cases i with
  | encode w => rfl
  | encodeNan s f => exact (classOf_iff _ .nan).2 (by simpa [encode] using bne_zero_iff_toNat.1 h)
  | encodePinf => rfl
  | encodeNinf => rfl
  | encodeZero s => exact (classOf_iff _ .zero).2 (by simp [encode])
  | encodeSubnormal s f => exact (classOf_iff _ .subnormal).2 (by simpa [encode] using bne_zero_iff_toNat.1 h)
  | encodeFraction s e f => exact (classOf_iff _ .fraction).2 (by simpa [encode, Instr.wellFormed] using h)
  | encodeMixed s e f => exact (classOf_iff _ .mixed).2 (by simpa [encode, Instr.wellFormed] using h)
  | encodeClamp s e f => exact (classOf_iff _ .clamp).2 (by simpa [encode, Instr.wellFormed] using h)

/-- The decoder reads back the fields the encoder packed. -/
theorem decode_encode {i : Instr} (h : i.wellFormed = true) (hrow : i.isClassRow = true) : decode (encode i) = i := by
  unfold decode
  rw [classOf_encode h]
  cases i with
  | encode w => exact absurd hrow Bool.false_ne_true
  | _ => simp [Instr.operandClass, encode]

/-! ## What a word decodes to -/

/-- A word decodes to an instruction of its class's row, whose field constraint is the class and whose fixed fields the
encoder fills in (R65, R67). -/
theorem decode_spec (w : Word) :
    (decode w).wellFormed = true ∧ (decode w).isClassRow = true ∧ encode (decode w) = w := by
  unfold decode
  cases h : classOf w with
  | nan =>
    obtain ⟨he, hf⟩ := (classOf_iff w _).1 h
    exact ⟨bne_zero_iff_toNat.2 hf, rfl, (eq_packFields_iff.2 ⟨rfl, expField_eq_2047.2 he, rfl⟩).symm⟩
  | pinf =>
    obtain ⟨he, hf, hs⟩ := (classOf_iff w _).1 h
    exact ⟨rfl, rfl, (eq_packFields_iff.2 ⟨hs, expField_eq_2047.2 he, eq_zero_iff_toNat.2 hf⟩).symm⟩
  | ninf =>
    obtain ⟨he, hf, hs⟩ := (classOf_iff w _).1 h
    exact ⟨rfl, rfl, (eq_packFields_iff.2 ⟨hs, expField_eq_2047.2 he, eq_zero_iff_toNat.2 hf⟩).symm⟩
  | zero =>
    obtain ⟨he, hf⟩ := (classOf_iff w _).1 h
    exact ⟨rfl, rfl, (eq_packFields_iff.2 ⟨rfl, eq_zero_iff_toNat.2 he, eq_zero_iff_toNat.2 hf⟩).symm⟩
  | subnormal =>
    obtain ⟨he, hf⟩ := (classOf_iff w _).1 h
    exact ⟨bne_zero_iff_toNat.2 hf, rfl, (eq_packFields_iff.2 ⟨rfl, eq_zero_iff_toNat.2 he, rfl⟩).symm⟩
  | fraction => exact ⟨decide_eq_true ((classOf_iff w _).1 h), rfl, packFields_fields w⟩
  | mixed => exact ⟨decide_eq_true ((classOf_iff w _).1 h), rfl, packFields_fields w⟩
  | clamp => exact ⟨decide_eq_true ((classOf_iff w _).1 h), rfl, packFields_fields w⟩

/-! ## The rows of the opcode table -/

open Laws.EncodedWordMatchesRow (packFields_and)

theorem and_exponentMask_eq_iff (w : Word) (e : BitVec 11) :
    w &&& 0x7FF0000000000000 = packFields false e 0 ↔ expField w = e := by
  have h : w &&& 0x7FF0000000000000 = packFields false (expField w) 0#52 :=
    calc w &&& 0x7FF0000000000000
        = packFields (signField w) (expField w) (fracField w) &&& packFields false (BitVec.allOnes 11) 0#52 := by
          rw [packFields_fields]; rfl
      _ = packFields false (expField w) 0#52 := by
          rw [packFields_and, BitVec.and_allOnes, Bool.and_false, BitVec.and_zero]
  rw [h, packFields_inj]
  exact ⟨fun ⟨_, he, _⟩ => he, fun he => ⟨rfl, he, rfl⟩⟩

theorem and_magnitudeMask_eq_zero_iff (w : Word) :
    w &&& 0x7FFFFFFFFFFFFFFF = 0 ↔ expField w = 0 ∧ fracField w = 0 := by
  have h : w &&& 0x7FFFFFFFFFFFFFFF = packFields false (expField w) (fracField w) :=
    calc w &&& 0x7FFFFFFFFFFFFFFF
        = packFields (signField w) (expField w) (fracField w)
            &&& packFields false (BitVec.allOnes 11) (BitVec.allOnes 52) := by rw [packFields_fields]; rfl
      _ = packFields false (expField w) (fracField w) := by
          rw [packFields_and, BitVec.and_allOnes, BitVec.and_allOnes, Bool.and_false]
  rw [h, show (0 : Word) = packFields false 0 0 from rfl, packFields_inj]
  exact ⟨fun ⟨_, hef⟩ => hef, fun hef => ⟨rfl, hef⟩⟩

/-- A row matches the words whose masked fields are its pattern and whose fields meet its constraints (R75). -/
theorem matchesWord_iff (r : Row) (w : Word) : r.matchesWord w = true ↔
    w &&& r.mask = r.pattern ∧ r.eMin ≤ (expField w).toNat ∧ (expField w).toNat ≤ r.eMax ∧
      r.frac.holds (fracField w) = true := by
  simp only [Row.matchesWord, Bool.and_eq_true, beq_iff_eq, decide_eq_true_eq, and_assoc]

theorem matchesMagnitude_iff (r : Row) (w : Word) : r.matchesMagnitude w = true ↔
    r.mMin ≤ (magField w).toNat ∧ (magField w).toNat ≤ r.mMax ∧
      (r.mask.getLsbD 63 = true → signField w = r.pattern.getLsbD 63) := by
  simp only [Row.matchesMagnitude, Bool.and_eq_true, decide_eq_true_eq, and_assoc, Bool.or_eq_true, Bool.not_eq_true',
    beq_iff_eq, ← Bool.not_eq_true, ← imp_iff_not_or]

theorem FracRule.holds_zero_iff (f : BitVec 52) : FracRule.zero.holds f = true ↔ f.toNat = 0 := by
  rw [FracRule.holds, beq_iff_eq, eq_zero_iff_toNat]

theorem FracRule.holds_nonzero_iff (f : BitVec 52) : FracRule.nonzero.holds f = true ↔ f.toNat ≠ 0 := bne_zero_iff_toNat

theorem encodeRow_matchesWord (w : Word) : encodeRow.matchesWord w = true :=
  (matchesWord_iff _ w).2 ⟨BitVec.and_zero, Nat.zero_le _, Nat.le_of_lt_succ (expField w).isLt, rfl⟩

/-- The masks of the class rows ask no more than the field constraints, but for the sign of the infinities. -/
theorem row_matchesWord_iff (w : Word) (c : OperandClass) : c.row.matchesWord w = true ↔ classOf w = c := by
  have hall : w &&& 0xFFFFFFFFFFFFFFFF = w := BitVec.and_allOnes
  rw [matchesWord_iff, classOf_iff]
  cases c with
  | nan =>
    change w &&& 0x7FF0000000000000 = packFields false 2047 0 ∧ 2047 ≤ _ ∧ _ ≤ 2047 ∧ FracRule.nonzero.holds _ = true ↔ _
    rw [and_exponentMask_eq_iff, expField_eq_2047, FracRule.holds_nonzero_iff]
    omega
  | pinf =>
    change w &&& 0xFFFFFFFFFFFFFFFF = packFields false 2047 0 ∧ 2047 ≤ _ ∧ _ ≤ 2047 ∧ FracRule.zero.holds _ = true ↔ _
    rw [hall, eq_packFields_iff, expField_eq_2047, eq_zero_iff_toNat, FracRule.holds_zero_iff]
    exact ⟨fun ⟨⟨hs, he, hf⟩, _⟩ => ⟨he, hf, hs⟩, fun ⟨he, hf, hs⟩ => ⟨⟨hs, he, hf⟩, he.ge, he.le, hf⟩⟩
  | ninf =>
    change w &&& 0xFFFFFFFFFFFFFFFF = packFields true 2047 0 ∧ 2047 ≤ _ ∧ _ ≤ 2047 ∧ FracRule.zero.holds _ = true ↔ _
    rw [hall, eq_packFields_iff, expField_eq_2047, eq_zero_iff_toNat, FracRule.holds_zero_iff]
    exact ⟨fun ⟨⟨hs, he, hf⟩, _⟩ => ⟨he, hf, hs⟩, fun ⟨he, hf, hs⟩ => ⟨⟨hs, he, hf⟩, he.ge, he.le, hf⟩⟩
  | zero =>
    change w &&& 0x7FFFFFFFFFFFFFFF = 0 ∧ 0 ≤ _ ∧ _ ≤ 0 ∧ FracRule.zero.holds _ = true ↔ _
    rw [and_magnitudeMask_eq_zero_iff, eq_zero_iff_toNat, eq_zero_iff_toNat, FracRule.holds_zero_iff]
    omega
  | subnormal =>
    change w &&& 0x7FF0000000000000 = packFields false 0 0 ∧ 0 ≤ _ ∧ _ ≤ 0 ∧ FracRule.nonzero.holds _ = true ↔ _
    rw [and_exponentMask_eq_iff, eq_zero_iff_toNat, FracRule.holds_nonzero_iff]
    omega
  | fraction => simp [OperandClass.row, FracRule.holds]
  | mixed => simp [OperandClass.row, FracRule.holds]
  | clamp => simp [OperandClass.row, FracRule.holds]

/-- The ranges of the magnitude word are those of the exponent and mantissa fields, the mantissa field the lower part. -/
theorem row_matchesMagnitude_iff (w : Word) (c : OperandClass) : c.row.matchesMagnitude w = true ↔ classOf w = c := by
  have hf := (fracField w).isLt
  have he := (expField w).isLt
  rw [matchesMagnitude_iff, classOf_iff, toNat_magField_fields]
  cases c with
  | nan => simp [OperandClass.row]; omega
  | pinf =>
    change 0x7FF0000000000000 ≤ _ ∧ _ ≤ 0x7FF0000000000000 ∧ (true = true → signField w = false) ↔ _
    exact ⟨fun ⟨hmin, hmax, hs⟩ => ⟨by omega, by omega, hs rfl⟩, fun ⟨he', hf', hs⟩ => ⟨by omega, by omega, fun _ => hs⟩⟩
  | ninf =>
    change 0x7FF0000000000000 ≤ _ ∧ _ ≤ 0x7FF0000000000000 ∧ (true = true → signField w = true) ↔ _
    exact ⟨fun ⟨hmin, hmax, hs⟩ => ⟨by omega, by omega, hs rfl⟩, fun ⟨he', hf', hs⟩ => ⟨by omega, by omega, fun _ => hs⟩⟩
  | zero => simp [OperandClass.row]
  | subnormal => simp [OperandClass.row]; omega
  | fraction => simp [OperandClass.row]; omega
  | mixed => simp [OperandClass.row]; omega
  | clamp => simp [OperandClass.row]; omega

/-! ## The statements -/

/-- Settles O1: the class of the encoded word is the row's, and the decoder reads the packed fields back. -/
theorem decodeOfEncodeIsTheInstruction : Obligations.DecodeOfEncodeIsTheInstruction :=
  fun _ hwf hrow => decode_encode hwf hrow

/-- Settles O2: by the class of the word. -/
theorem everyWordDecodesAndReencodes : Obligations.EveryWordDecodesAndReencodes :=
  decode_spec

/-- Settles O3: the rows' mask, match and fields, and their magnitude ranges, class by class. -/
theorem rowsSelectTheOperandClass : Obligations.RowsSelectTheOperandClass :=
  fun w => ⟨encodeRow_matchesWord w, fun c => ⟨row_matchesWord_iff w c, row_matchesMagnitude_iff w c⟩⟩

/-- Settles O4: eight evaluations of the decoder. -/
theorem writtenWordsDecode : Obligations.WrittenWordsDecode := by
  unfold Obligations.WrittenWordsDecode
  decide

end Sys2Proof
end

section
/-! SUPPORT. What an instruction completes with: every well-formed row is the COMPLETE effect (R92) on the digits of ENCODE
of its word, so the class rows divide the row ENCODE and keep its meaning (R75, R93). -/

namespace Sys2Proof.Machine

/-! ## Digits by class -/

theorem encodeSeq_packFields {e : BitVec 11} (he : e.toNat ≠ 2047) (s : Digit) (f : BitVec 52) :
    encodeSeq (packFields s e f) = generalPath s (absValue e f) := by
  have hfin : isFinite (packFields s e f) = true := by rwa [isFinite_iff, expField_packFields]
  rw [encodeSeq_of_isFinite hfin, localsOf_OUTSEQ_eq_generalPath, wordAbs, signField_packFields, expField_packFields,
    fracField_packFields]

theorem encodeSeq_pinf : encodeSeq (packFields false 2047 0) = pinfConst := rfl

theorem encodeSeq_ninf : encodeSeq (packFields true 2047 0) = ninfConst := rfl

/-- A well-formed instruction completes with ENCODE of its word (R77, R90). -/
theorem exec_of_wellFormed {i : Instr} (h : i.wellFormed = true) (s : State) :
    exec i s = .next (s.complete (encodeSeq (encode i))) := by
  cases i with
  | encode w => rfl
  | encodeNan sg f =>
    have hnan : isNan (packFields sg 2047 f) = true := by
      rw [isNan_iff, expField_packFields, fracField_packFields]
      exact ⟨rfl, bne_iff_ne.1 h⟩
    rw [exec_encodeNan, encode, encodeSeq_of_isNan hnan]
  | encodePinf => rfl
  | encodeNinf => rfl
  | encodeZero sg => rw [encode, encodeSeq_packFields (by decide)]; rfl
  | encodeSubnormal sg f => rw [encode, encodeSeq_packFields (by decide)]; rfl
  | encodeFraction sg e f =>
    have he := of_decide_eq_true h
    rw [encode, encodeSeq_packFields (by omega)]; rfl
  | encodeMixed sg e f =>
    have he := of_decide_eq_true h
    rw [encode, encodeSeq_packFields (by omega)]; rfl
  | encodeClamp sg e f =>
    have he := of_decide_eq_true h
    rw [encode, encodeSeq_packFields (by omega)]; rfl

theorem exec_decode (w : Word) (s : State) : exec (decode w) s = .next (s.complete (encodeSeq w)) := by
  obtain ⟨hwf, -, henc⟩ := decode_spec w
  rw [exec_of_wellFormed hwf, henc]

/-! ## The statements -/

/-- Settles O7: both complete with ENCODE of the word. -/
theorem encodeRowActsAsItsClassRow : Obligations.EncodeRowActsAsItsClassRow :=
  fun w s => (exec_decode w s).symm

/-- Settles O17: the row's COMPLETE effect writes RESULT from the instruction's digits, BUSY and RESULT_VALID. -/
theorem rowsWriteOnlyResultBusyValid : Obligations.RowsWriteOnlyResultBusyValid := by
  intro i
  obtain ⟨out, hexec⟩ := exec_is_complete i
  refine ⟨bitForm out, fun s t h => ?_⟩
  cases (hexec s).symm.trans h
  exact ⟨rfl, rfl, rfl, rfl, rfl, rfl, rfl, rfl⟩

end Sys2Proof.Machine
end

section
/-! SUPPORT. One clock edge of the wrapper (40_encode_operation.md section 2): what COMPLETE and the merged edge leave, the
invariant of R36, ACCEPT and HOLD. -/

namespace Sys2Proof.Machine

/-! ## The edges that complete -/

/-- COMPLETE (R92): the result is ENCODE of OPERAND. -/
theorem step_at_complete {s : State} (hr : s.pins.rst = false) (hb : s.busy = true) (hw : s.waitEdges = 0) :
    step s = .next (s.tick.complete (encodeSeq s.operand)) := by
  rw [step_of_complete ((edgeStep_of_busy hr hb).trans (if_pos hw)), exec_decode]

/-- ACCEPT and COMPLETE in one edge, at LATENCY 0 (R92): the result is ENCODE of the offered word. -/
theorem step_at_acceptAndComplete {s : State} (hr : s.pins.rst = false) (hb : s.busy = false)
    (hv : s.pins.inValid = true) (hl : s.nextLatency = 0) :
    step s = .next (s.accept.complete (encodeSeq s.pins.inValue)) := by
  rw [step_of_acceptAndComplete ((edgeStep_of_offer hr hb hv).trans (if_pos hl)), exec_decode]

/-- ACCEPT with LATENCY at least 1 (R91). -/
theorem step_at_accept {s : State} (hr : s.pins.rst = false) (hb : s.busy = false) (hv : s.pins.inValid = true)
    (hl : s.nextLatency ≠ 0) : step s = .next s.accept :=
  step_of_accept ((edgeStep_of_offer hr hb hv).trans (if_neg hl))

/-- HOLD of a busy block before its COMPLETE edge (R97). -/
theorem step_at_hold {s : State} (hr : s.pins.rst = false) (hb : s.busy = true) (hw : s.waitEdges ≠ 0) :
    step s = .next s.hold :=
  step_of_hold ((edgeStep_of_busy hr hb).trans (if_neg hw))

/-- Everything an edge leaves, with the word it accepts: RESET, COMPLETE, HOLD, the merged edge, and ACCEPT. -/
theorem step_next_effects {s t : State} (h : step s = .next t) :
    (t = s.takeReset ∧ s.acceptedNow = none) ∨
    (s.busy = true ∧ t = s.tick.complete (encodeSeq s.operand) ∧ s.acceptedNow = none) ∨
    (t = s.hold ∧ s.acceptedNow = none) ∨
    (s.busy = false ∧ t = s.accept.complete (encodeSeq s.pins.inValue) ∧ s.acceptedNow = some s.pins.inValue) ∨
    (s.busy = false ∧ t = s.accept ∧ s.acceptedNow = some s.pins.inValue) := by
  unfold State.acceptedNow
  obtain ⟨e, -⟩ | ⟨e, -, hb, -⟩ | ⟨e, -⟩ | ⟨e, -, hb, -⟩ | ⟨e, -, hb, -⟩ | ⟨e, -⟩ := edgeStep_cases s <;> rw [e]
  · cases (step_of_reset e).symm.trans h
    exact .inl ⟨rfl, rfl⟩
  · cases ((step_of_complete e).trans (exec_decode _ _)).symm.trans h
    exact .inr (.inl ⟨hb, rfl, rfl⟩)
  · cases (step_of_hold e).symm.trans h
    exact .inr (.inr (.inl ⟨rfl, rfl⟩))
  · cases ((step_of_acceptAndComplete e).trans (exec_decode _ _)).symm.trans h
    exact .inr (.inr (.inr (.inl ⟨hb, rfl, rfl⟩)))
  · cases (step_of_accept e).symm.trans h
    exact .inr (.inr (.inr (.inr ⟨hb, rfl, rfl⟩)))
  · cases (step_of_hold e).symm.trans h
    exact .inr (.inr (.inl ⟨rfl, rfl⟩))

/-! ## The invariant of the wrapper (R36) -/

theorem State.inv_of_not_valid {s : State} (h : s.resultValid = false) : s.Inv := by
  simp [State.Inv, h]

/-- COMPLETE puts ENCODE of OPERAND into RESULT and leaves the block idle. -/
theorem State.inv_complete (s : State) : (s.complete (encodeSeq s.operand)).Inv :=
  ⟨fun ⟨hb, _⟩ => Bool.false_ne_true hb, fun _ => rfl⟩

theorem State.Inv.hold {s : State} (h : s.Inv) : s.hold.Inv := h

/-! ## A word put where the next step takes its operand from (log 17) -/

theorem State.withFetchWord_word (s : State) (w : Word) : s.withFetchWord 64 w.toNat = s.withOperandInProgress w := by
  rw [State.withFetchWord, Nat.mod_eq_of_lt w.isLt, BitVec.ofNat_toNat, BitVec.setWidth_eq]

theorem State.withOperandInProgress_rst (s : State) (w : Word) : (s.withOperandInProgress w).pins.rst = false := by
  rw [State.pins, State.withOperandInProgress_inputs]
  cases s.inputs <;> rfl

theorem decodeTableWord_word (w : Word) : decodeTableWord 64 w.toNat = some (decode w) := by
  rw [decodeTableWord, decodeBits, if_pos ⟨le_rfl, w.isLt⟩, BitVec.ofNat_toNat, BitVec.setWidth_eq]

/-! ## The statements -/

/-- Settles O47: RESET and ACCEPT leave no valid result, HOLD leaves the registers, COMPLETE delivers ENCODE of OPERAND. -/
theorem stepKeepsTheWrapperInvariant : Obligations.StepKeepsTheWrapperInvariant := by
  intro s t hs h
  obtain ⟨rfl, -⟩ | ⟨-, rfl, -⟩ | ⟨rfl, -⟩ | ⟨-, rfl, -⟩ | ⟨-, rfl, -⟩ := step_next_effects h
  · exact State.inv_of_not_valid s.takeReset_resultValid
  · exact s.tick.inv_complete
  · exact hs.hold
  · exact s.accept.inv_complete
  · exact State.inv_of_not_valid s.accept_resultValid

/-- Settles O48: reset leaves BUSY and RESULT_VALID 0. -/
theorem resetStateIsIdleAndInvariant : Obligations.ResetStateIsIdleAndInvariant :=
  ⟨State.reset_busy, State.reset_resultValid, State.inv_of_not_valid State.reset_resultValid⟩

/-- Settles O5: the edge is COMPLETE, or the merged one. -/
theorem stepRunsTheDecodedOperand : Obligations.StepRunsTheDecodedOperand :=
  fun _ hr => ⟨fun hb hw => step_of_complete ((edgeStep_of_busy hr hb).trans (if_pos hw)),
    fun hb hv hl => step_of_acceptAndComplete ((edgeStep_of_offer hr hb hv).trans (if_pos hl))⟩

/-- Settles O6: the placed word is the operand of a busy block at its COMPLETE edge. -/
theorem fetchedWordRunsNext : Obligations.FetchedWordRunsNext := by
  refine fun s w => ⟨decodeTableWord_word w, ?_⟩
  rw [State.withFetchWord_word]
  exact step_of_complete (edgeStep_of_busy (s.withOperandInProgress_rst w) rfl)

/-- Settles O42: an offer to an idle block is latched by ACCEPT; a busy block takes a step that accepts nothing, and only
RESET, which leaves it idle, writes OPERAND. -/
theorem acceptLatchesTheOperand : Obligations.AcceptLatchesTheOperand := by
  refine ⟨fun s hr hready hv hl => ?_, fun s t hb h => ?_⟩
  · have hb : s.busy = false := by simpa [State.inReady] using hready
    exact ⟨s.accept, step_at_accept hr hb hv hl, rfl, rfl, rfl⟩
  · obtain ⟨rfl, hnone⟩ | ⟨-, rfl, hnone⟩ | ⟨rfl, hnone⟩ | ⟨hidle, -⟩ | ⟨hidle, -⟩ := step_next_effects h
    · exact ⟨hnone, fun hbusy => absurd hbusy Bool.false_ne_true⟩
    · exact ⟨hnone, fun _ => rfl⟩
    · exact ⟨hnone, fun _ => rfl⟩
    · exact absurd (hidle.symm.trans hb) Bool.false_ne_true
    · exact absurd (hidle.symm.trans hb) Bool.false_ne_true

/-- Settles O44: both edges HOLD; a busy edge without reset reads no port. -/
theorem holdAndIgnoredOffers : Obligations.HoldAndIgnoredOffers := by
  refine ⟨fun s hr h => ⟨s.hold, ?_, s.sameRegisters_hold⟩, fun s p q ps hb hp hq => ?_⟩
  · obtain ⟨hb, hv⟩ | ⟨hb, hw⟩ := h
    · exact step_of_hold (edgeStep_of_no_offer hr hb hv)
    · exact step_at_hold hr hb hw
  · by_cases hw : s.waitEdges = 0
    · exact (step_at_complete (s := { s with inputs := p :: ps }) hp hb hw).trans
        (step_at_complete (s := { s with inputs := q :: ps }) hq hb hw).symm
    · exact (step_at_hold (s := { s with inputs := p :: ps }) hp hb hw).trans
        (step_at_hold (s := { s with inputs := q :: ps }) hq hb hw).symm

end Sys2Proof.Machine
end

section
/-! SUPPORT. Transactions over several edges (R92, R96, R100): the edges held, the COMPLETE edge, and the operand of the most
recent ACCEPT. -/

namespace Sys2Proof.Machine

/-! ## The edges a transaction is held -/

theorem runEdges_add (j k : Nat) {s t : State} (h : runEdges j s = .next t) : runEdges (j + k) s = runEdges k t := by
  induction j generalizing s with
  | zero => cases h; rw [Nat.zero_add]
  | succ j ih =>
    obtain ⟨u, hstep⟩ := step_answers_next s
    rw [Nat.add_right_comm, runEdges_succ_of_step hstep]
    exact ih ((runEdges_succ_of_step hstep j).symm.trans h)

theorem runEdges_one (s : State) : runEdges 1 s = step s := by
  obtain ⟨t, hstep⟩ := step_answers_next s
  rw [runEdges_succ_of_step hstep, hstep]
  rfl

/-- A busy block that is not reset holds while edges are left to hold. -/
theorem runEdges_of_busy {k : Nat} {s : State} (hb : s.busy = true) (hw : k ≤ s.waitEdges) (hr : noReset (s.inputs.take k)) :
    ∃ t, runEdges k s = .next t ∧ s.SameRegisters t ∧ t.waitEdges = s.waitEdges - k ∧ t.inputs = s.inputs.drop k := by
  induction k generalizing s with
  | zero => exact ⟨s, rfl, ⟨rfl, rfl, rfl, rfl⟩, rfl, rfl⟩
  | succ k ih =>
    have hstep : step s = .next s.hold := step_at_hold (rst_of_noReset hr) hb (by omega)
    obtain ⟨t, hrun, hsame, hwait, hin⟩ := ih (s := s.hold) hb (by rw [State.hold_waitEdges]; omega) (noReset_tail hr)
    refine ⟨t, (runEdges_succ_of_step hstep k).trans hrun, s.sameRegisters_hold.trans hsame, ?_, ?_⟩
    · rw [hwait, State.hold_waitEdges]; omega
    · rw [hin, State.hold_inputs, List.drop_tail]

theorem noReset_drop {l : List PortInputs} {k : Nat} (h : noReset (l.take (k + 1))) : noReset ((l.drop k).take 1) := by
  intro p hp
  rw [List.take_drop] at hp
  exact h p (List.mem_of_mem_drop hp)

theorem noReset_take {l : List PortInputs} {j k : Nat} (hjk : j ≤ k) (h : noReset (l.take k)) : noReset (l.take j) :=
  fun p hp => h p ((List.take_prefix_take_left hjk).subset hp)

/-- A busy block that is not reset takes its COMPLETE edge after the edges left to hold (R92). -/
theorem runEdges_to_complete {s : State} (hb : s.busy = true) (hr : noReset (s.inputs.take (s.waitEdges + 1))) :
    ∃ t, runEdges (s.waitEdges + 1) s = .next t ∧ t.result = encodeBits s.operand ∧ t.operand = s.operand ∧
      t.resultValid = true ∧ t.busy = false := by
  obtain ⟨u, hrun, ⟨hop, -, hbu, -⟩, hwait, hin⟩ := runEdges_of_busy hb le_rfl (noReset_take (Nat.le_succ _) hr)
  have hrst : u.pins.rst = false := rst_of_noReset (k := 0) (hin ▸ noReset_drop hr)
  refine ⟨u.tick.complete (encodeSeq u.operand), ?_, ?_, hop.symm, rfl, rfl⟩
  · rw [runEdges_add _ 1 hrun, runEdges_one]
    exact step_at_complete hrst (hbu.symm.trans hb) (by omega)
  · rw [hop]; rfl

/-! ## A word offered to an idle block -/

theorem State.OffersToIdle.rst {s : State} {w : Word} (h : s.OffersToIdle w) : s.pins.rst = false :=
  rst_of_noReset h.2.2.2

theorem State.OffersToIdle.accept_noReset {s : State} {w : Word} (h : s.OffersToIdle w) (hl : s.nextLatency ≠ 0) :
    noReset (s.accept.inputs.take (s.accept.waitEdges + 1)) := by
  obtain ⟨-, -, -, hr⟩ := h
  rw [State.accept_inputs, State.accept_waitEdges, Nat.sub_add_cancel (Nat.pos_of_ne_zero hl)]
  exact noReset_tail hr

theorem State.OffersToIdle.step_accept {s : State} {w : Word} (h : s.OffersToIdle w) (hl : s.nextLatency ≠ 0) :
    step s = .next s.accept :=
  step_at_accept h.rst h.1 h.2.1 hl

/-- The offered word is encoded LATENCY edges after its ACCEPT (R92). -/
theorem State.OffersToIdle.run_to_result {s : State} {w : Word} (h : s.OffersToIdle w) :
    ∃ t, runEdges (s.nextLatency + 1) s = .next t ∧ t.result = encodeBits w ∧ t.operand = w ∧
      t.resultValid = true ∧ t.busy = false := by
  obtain ⟨hb, hv, rfl, hr⟩ := id h
  by_cases hl : s.nextLatency = 0
  · refine ⟨s.accept.complete (encodeSeq s.pins.inValue), ?_, rfl, rfl, rfl, rfl⟩
    rw [hl, runEdges_one]
    exact step_at_acceptAndComplete h.rst hb hv hl
  · obtain ⟨t, hrun, hrest⟩ := runEdges_to_complete s.accept_busy (h.accept_noReset hl)
    rw [State.accept_waitEdges, Nat.sub_add_cancel (Nat.pos_of_ne_zero hl)] at hrun
    exact ⟨t, (runEdges_succ_of_step (h.step_accept hl) _).trans hrun, hrest⟩

/-- Between ACCEPT and COMPLETE the block is busy with the word and shows no result (R91, R97). -/
theorem State.OffersToIdle.run_between {s : State} {w : Word} (h : s.OffersToIdle w) {k : Nat} (hk : 1 ≤ k)
    (hle : k ≤ s.nextLatency) : ∃ u, runEdges k s = .next u ∧ u.busy = true ∧ u.resultValid = false ∧ u.operand = w := by
  obtain ⟨j, rfl⟩ := Nat.exists_eq_add_of_le' hk
  have hl : s.nextLatency ≠ 0 := by omega
  have hwait : j ≤ s.accept.waitEdges := by rw [State.accept_waitEdges]; omega
  obtain ⟨u, hrun, ⟨hop, -, hbusy, hvalid⟩, -⟩ :=
    runEdges_of_busy s.accept_busy hwait (noReset_take (by omega) (h.accept_noReset hl))
  exact ⟨u, (runEdges_succ_of_step (h.step_accept hl) j).trans hrun, hbusy.symm, hvalid.symm, hop.symm.trans h.2.2.1⟩

/-! ## The most recent ACCEPT -/

/-- `w` is the word accepted last: OPERAND still holds it while the block is busy or shows a result, which is its ENCODE. -/
def State.HoldsAccepted (s : State) (w : Option Word) : Prop :=
  (s.busy = true → w = some s.operand) ∧ (s.resultValid = true → w = some s.operand ∧ s.result = encodeBits s.operand)

theorem State.holdsAccepted_of_idle {s : State} (hb : s.busy = false) (hr : s.resultValid = false) (w : Option Word) :
    s.HoldsAccepted w := by
  simp [State.HoldsAccepted, hb, hr]

theorem step_keeps_holdsAccepted {s t : State} {w : Option Word} (hs : s.HoldsAccepted w) (h : step s = .next t) :
    t.HoldsAccepted (s.acceptedNow.or w) := by
  obtain ⟨hbusy, hvalid⟩ := hs
  obtain ⟨rfl, ha⟩ | ⟨hb, rfl, ha⟩ | ⟨rfl, ha⟩ | ⟨-, rfl, ha⟩ | ⟨-, rfl, ha⟩ := step_next_effects h <;> rw [ha]
  · exact State.holdsAccepted_of_idle s.takeReset_busy s.takeReset_resultValid _
  · exact ⟨fun _ => hbusy hb, fun _ => ⟨hbusy hb, rfl⟩⟩
  · exact ⟨hbusy, hvalid⟩
  · exact ⟨fun _ => rfl, fun _ => ⟨rfl, rfl⟩⟩
  · exact ⟨fun _ => rfl, fun hv => absurd hv Bool.false_ne_true⟩

theorem lastAccepted_succ_of_step {s t : State} (h : step s = .next t) (k : Nat) (w : Option Word) :
    lastAccepted (k + 1) s w = lastAccepted k t (s.acceptedNow.or w) := by
  rw [lastAccepted, h]

theorem runEdges_keeps_holdsAccepted (k : Nat) {s t : State} {w : Option Word} (hs : s.HoldsAccepted w)
    (h : runEdges k s = .next t) : t.HoldsAccepted (lastAccepted k s w) := by
  induction k generalizing s w with
  | zero => cases h; exact hs
  | succ k ih =>
    obtain ⟨u, hstep⟩ := step_answers_next s
    rw [lastAccepted_succ_of_step hstep]
    exact ih (step_keeps_holdsAccepted hs hstep) ((runEdges_succ_of_step hstep k).symm.trans h)

/-! ## The statements -/

/-- Settles O43: both completing edges by their effect, the third clause by the edges left to hold. -/
theorem completeDeliversTheResult : Obligations.CompleteDeliversTheResult := by
  refine ⟨fun s hr hb hw => ⟨_, step_at_complete hr hb hw, rfl, rfl, rfl⟩,
    fun s hr hb hv hl => ⟨_, step_at_acceptAndComplete hr hb hv hl, rfl, rfl, rfl, rfl⟩, fun s hb hr => ?_⟩
  obtain ⟨t, hrun, hresult, -, hvalid, hbusy⟩ := runEdges_to_complete hb hr
  exact ⟨t, hrun, hresult, hvalid, hbusy⟩

/-- Settles O50: ACCEPT, the edges held, and COMPLETE, or the merged edge at LATENCY 0. -/
theorem offeredWordIsEncoded : Obligations.OfferedWordIsEncoded :=
  fun _ _ h => ⟨h.run_to_result, fun _ hk hle => h.run_between hk hle⟩

/-- Settles O51: both results are ENCODE of the word, and both are valid, so the ports show them. -/
theorem resultDependsOnTheOperandAlone : Obligations.ResultDependsOnTheOperandAlone := by
  intro s t w hs ht
  obtain ⟨u, hu, hru, -, hvu, -⟩ := hs.run_to_result
  obtain ⟨v, hv, hrv, -, hvv, -⟩ := ht.run_to_result
  have hres : u.result = v.result := hru.trans hrv.symm
  refine ⟨u, v, hu, hv, hres, ?_, ?_⟩
  · rw [State.outBits_of_valid hvu, State.outBits_of_valid hvv, hres]
  · rw [State.outChars_of_valid hvu, State.outChars_of_valid hvv, hres]

/-- Settles O49: OPERAND holds the word accepted last along every run. -/
theorem validResultIsOfTheLastAccepted : Obligations.ValidResultIsOfTheLastAccepted := by
  intro s t k hb hr hrun hvalid
  obtain ⟨-, hres⟩ := runEdges_keeps_holdsAccepted k (State.holdsAccepted_of_idle hb hr none) hrun
  obtain ⟨hlast, hresult⟩ := hres hvalid
  exact ⟨t.operand, hlast, hresult, (State.outBits_of_valid hvalid).trans hresult⟩

/-- Settles O53: an idle block that is offered nothing holds at every edge. -/
theorem finishedRunIsFinal : Obligations.FinishedRunIsFinal :=
  fun _ _ ⟨hb, ho⟩ hr =>
    runEdges_of_idle hb (fun p hp => hr p (List.mem_of_mem_take hp)) fun p hp => ho p (List.mem_of_mem_take hp)

end Sys2Proof.Machine
end

section
/-! SUPPORT. Several blocks (R35, R231): an edge of one of them changes one entry of the list. -/

namespace Sys2Proof.Machine

/-- The next state an edge answers; every edge answers one. -/
def nextState (s : State) : State :=
  match step s with
  | .next t => t
  | .fault _ => s
  | .refused _ => s

theorem step_eq_next (s : State) : step s = .next (nextState s) := by
  obtain ⟨t, h⟩ := step_answers_next s
  rw [nextState, h]

theorem stepInstance_eq (k : Nat) (blocks : List State) : stepInstance k blocks = .next (blocks.modify k nextState) := by
  rw [stepInstance]
  cases h : blocks[k]? with
  | none => rw [List.modify_eq_self (by simpa using h)]
  | some s =>
    simp only [step_eq_next]
    rw [List.modify_eq_set_getElem?, h]
    rfl

/-- Settles O54: an edge modifies the entry of its own block, and edges of two blocks modify two entries. -/
theorem instancesShareNothing : Obligations.InstancesShareNothing := by
  refine ⟨fun blocks k s hs => ⟨nextState s, blocks.modify k nextState, step_eq_next s, stepInstance_eq k blocks,
    List.length_modify .., ?_, fun j hj => ?_⟩, fun blocks j k hjk => ⟨_, _, _, stepInstance_eq j blocks,
      stepInstance_eq k _, stepInstance_eq k blocks, ?_⟩⟩
  · rw [List.getElem?_modify_eq, hs]; rfl
  · exact List.getElem?_modify_ne _ _ hj.symm
  · rw [stepInstance_eq, List.modify_modify_ne _ _ _ hjk]

end Sys2Proof.Machine
end

section
/-! SUPPORT. The closed form (R205): the result of every operand by its fields, class by class. -/

namespace Sys2Proof.Machine

/-! ## The mantissa field without an integer part (R158, R181) -/

theorem absValue_of_eq_zero {e : BitVec 11} (he : e.toNat = 0) (f : BitVec 52) : absValue e f = f.toNat :=
  if_pos (eq_zero_iff_toNat.2 he)

theorem absValue_eq_zero_iff (e : BitVec 11) (f : BitVec 52) : absValue e f = 0 ↔ e.toNat = 0 ∧ f.toNat = 0 := by
  by_cases he : e.toNat = 0
  · rw [absValue_of_eq_zero he]; simp [he]
  · rw [absValue_of_ne_zero he]; simp [he]

theorem absValue_lt_magOne {e : BitVec 11} (he : e.toNat ≤ 1022) (f : BitVec 52) : absValue e f < magOne := by
  rw [magOne, unitBits_eq]
  refine Nat.lt_of_not_le fun h => ?_
  have hb := bitlen_ge.2 h
  by_cases h0 : e.toNat = 0
  · have := bitlen_absValue_le_of_eq_zero h0 f
    omega
  · rw [bitlen_absValue_of_ne_zero h0] at hb
    omega

/-- Without an integer part the mantissa field is the 52 digits of the magnitude after its first 1 digit. -/
theorem toNat_fracField_encodeBits_of_lt_one {w : Word} (he : (expField w).toNat ≤ 1022) (h0 : wordAbs w ≠ 0) :
    (fracField (encodeBits w)).toNat = wordAbs w * 2 ^ 52 / 2 ^ (bitlen (wordAbs w) - 1) % 2 ^ 52 := by
  have hlt : wordAbs w < magOne := absValue_lt_magOne he _
  have hn : (localsOf w).ID = [] := by
    have hI : magFloor (wordAbs w) = 0 := Nat.div_eq_of_lt hlt
    change (intExpand (magFloor (wordAbs w))).ID = []
    rw [hI, intExpand_zero]
  have hM : (localsOf w).M ++ zeros (52 - (localsOf w).M.length) = (bin (bitlen (wordAbs w) - 1) (wordAbs w) ++ zeros 52).take 52 := by
    have hloc : (localsOf w).M = mantissaDigits (localsOf w).ID (localsOf w).FD (localsOf w).shift := rfl
    rw [hloc, hn]
    exact mantissa_empty hlt h0 (localsOf w).n
  rw [toNat_fracField_encodeBits_of_isFinite ((isFinite_iff w).2 (by omega)), hM, bin_append_zeros, take_bin _ (by omega),
    Nat.add_sub_cancel, val_bin]

/-- The digits of a FRACTION operand after its first 1 are its mantissa field. -/
theorem fracField_encodeBits_of_fraction {w : Word} (h1 : 1 ≤ (expField w).toNat) (h2 : (expField w).toNat ≤ 1022) :
    fracField (encodeBits w) = fracField w := by
  have ha : wordAbs w = (2 ^ 52 + (fracField w).toNat) * 2 ^ ((expField w).toNat - 1) := absValue_of_ne_zero (by omega) _
  have hb : bitlen (wordAbs w) = (expField w).toNat + 52 := bitlen_absValue_of_ne_zero (by omega) _
  have hpow : 2 ^ (bitlen (wordAbs w) - 1) = 2 ^ ((expField w).toNat - 1) * 2 ^ 52 := by
    rw [hb, ← Nat.pow_add]; congr 1; omega
  have h0 : wordAbs w ≠ 0 := by rw [ha]; positivity
  have hf := (fracField w).isLt
  apply BitVec.eq_of_toNat_eq
  rw [toNat_fracField_encodeBits_of_lt_one h2 h0, hpow, Nat.mul_div_mul_right _ _ (by positivity), ha,
    Nat.mul_div_cancel _ (by positivity), Nat.add_mod_left, Nat.mod_eq_of_lt hf]

/-- The digits of a SUBNORMAL operand after its first 1, on the left of the field (R181). -/
theorem fracField_encodeBits_of_subnormal {w : Word} (he : (expField w).toNat = 0) (hf : (fracField w).toNat ≠ 0) :
    fracField (encodeBits w) = subnormalMantissa (fracField w) := by
  have ha : wordAbs w = (fracField w).toNat := absValue_of_eq_zero he _
  have hb : bitlen (fracField w).toNat ≤ 52 := bitlen_le_of_lt_two_pow (fracField w).isLt
  have hpos : bitlen (fracField w).toNat ≠ 0 := by rwa [ne_eq, bitlen_eq_zero_iff]
  have hpow : 2 ^ 52 = 2 ^ (53 - bitlen (fracField w).toNat) * 2 ^ (bitlen (fracField w).toNat - 1) := by
    rw [← Nat.pow_add]; congr 1; omega
  apply BitVec.eq_of_toNat_eq
  rw [toNat_fracField_encodeBits_of_lt_one (by omega) (ha ▸ hf), ha, subnormalMantissa, BitVec.toNat_ofNat]
  congr 1
  conv_lhs => rw [hpow]
  rw [← Nat.mul_assoc, Nat.mul_div_cancel _ (by positivity)]

/-! ## The result by fields -/

theorem encodeBits_of_zero {w : Word} (he : (expField w).toNat = 0) (hf : (fracField w).toNat = 0) :
    encodeBits w = w := by
  have ha : wordAbs w = 0 := (absValue_eq_zero_iff _ _).2 ⟨he, hf⟩
  have hbits : bitForm (signField w :: zeros 63) = packFields (signField w) 0 0 := by cases signField w <;> decide
  rw [encodeBits, encodeSeq_of_wordAbs_eq_zero ((isFinite_iff w).2 (by omega)) ha, hbits, eq_comm, eq_packFields_iff]
  exact ⟨rfl, eq_zero_iff_toNat.2 he, eq_zero_iff_toNat.2 hf⟩

theorem expField_encodeBits_of_le_1074 {w : Word} (h : (expField w).toNat ≤ 1074) : expField (encodeBits w) = expField w := by
  apply BitVec.eq_of_toNat_eq
  rw [toNat_expField_encodeBits, if_neg (by omega)]

theorem encodeBits_of_subnormal {w : Word} (he : (expField w).toNat = 0) (hf : (fracField w).toNat ≠ 0) :
    encodeBits w = packFields (signField w) 0 (subnormalMantissa (fracField w)) :=
  eq_packFields_iff.2 ⟨signField_encodeBits_of_isFinite ((isFinite_iff w).2 (by omega)),
    (expField_encodeBits_of_le_1074 (by omega)).trans (eq_zero_iff_toNat.2 he), fracField_encodeBits_of_subnormal he hf⟩

/-- FRACTION and MIXED operands are their own result (R203). -/
theorem encodeBits_of_normal {w : Word} (h1 : 1 ≤ (expField w).toNat) (h2 : (expField w).toNat ≤ 1074) :
    encodeBits w = w := by
  have hfin : isFinite w = true := (isFinite_iff w).2 (by omega)
  have hfrac : fracField (encodeBits w) = fracField w := by
    by_cases h : (expField w).toNat ≤ 1022
    · exact fracField_encodeBits_of_fraction h1 h
    · exact fracField_encodeBits_of_integer hfin (by omega)
  rw [← packFields_fields w, eq_packFields_iff, packFields_fields]
  exact ⟨signField_encodeBits_of_isFinite hfin, expField_encodeBits_of_le_1074 h2, hfrac⟩

theorem encodeBits_of_clamp {w : Word} (h1 : 1075 ≤ (expField w).toNat) (h2 : (expField w).toNat ≤ 2046) :
    encodeBits w = packFields (signField w) 2046 (fracField w) :=
  have hfin : isFinite w = true := (isFinite_iff w).2 (by omega)
  eq_packFields_iff.2 ⟨signField_encodeBits_of_isFinite hfin, expField_encodeBits_of_clamp hfin h1,
    fracField_encodeBits_of_integer hfin (by omega)⟩

/-- The infinities are their own results (R112). -/
theorem encodeBits_of_infinity {w : Word} (he : (expField w).toNat = 2047) (hf : (fracField w).toNat = 0) :
    encodeBits w = w := by
  have hw : w = packFields (signField w) 2047 0 :=
    eq_packFields_iff.2 ⟨rfl, expField_eq_2047.2 he, eq_zero_iff_toNat.2 hf⟩
  rw [hw]
  cases signField w
  · rw [encodeBits, encodeSeq_pinf]; decide
  · rw [encodeBits, encodeSeq_ninf]; decide

theorem isNan_iff_toNat (w : Word) : isNan w = true ↔ (expField w).toNat = 2047 ∧ (fracField w).toNat ≠ 0 := by
  rw [isNan_iff, expField_eq_2047, ne_eq, eq_zero_iff_toNat]

/-- Every word is a NaN, an infinity, a zero, a subnormal, a normal word below the clamp, or a clamped one. -/
theorem fields_cases (w : Word) :
    isNan w = true ∨ ((expField w).toNat = 2047 ∧ (fracField w).toNat = 0) ∨
    ((expField w).toNat = 0 ∧ (fracField w).toNat = 0) ∨ ((expField w).toNat = 0 ∧ (fracField w).toNat ≠ 0) ∨
    (1 ≤ (expField w).toNat ∧ (expField w).toNat ≤ 1074) ∨ (1075 ≤ (expField w).toNat ∧ (expField w).toNat ≤ 2046) := by
  have hlt := (expField w).isLt
  rw [isNan_iff_toNat]
  omega

theorem closedForm_eq (w : Word) : closedForm w =
    if (expField w).toNat = 2047 then if (fracField w).toNat ≠ 0 then 0xFFF8000000000000 else w
    else if (expField w).toNat = 0 then
      if (fracField w).toNat = 0 then w else packFields (signField w) 0 (subnormalMantissa (fracField w))
    else if (expField w).toNat ≤ 1074 then w
    else packFields (signField w) 2046 (fracField w) := by
  simp only [closedForm, expField_eq_2047, ne_eq, eq_zero_iff_toNat]

/-- The staged ENCODE is the closed form (R205). -/
theorem encodeBits_eq_closedForm (w : Word) : encodeBits w = closedForm w := by
  rw [closedForm_eq]
  obtain h | ⟨he, hf⟩ | ⟨he, hf⟩ | ⟨he, hf⟩ | ⟨h1, h2⟩ | ⟨h1, h2⟩ := fields_cases w
  · obtain ⟨he, hf⟩ := (isNan_iff_toNat w).1 h
    rw [encodeBits_of_isNan h, if_pos he, if_pos hf]
  · rw [encodeBits_of_infinity he hf, if_pos he, if_neg (not_not.2 hf)]
  · rw [encodeBits_of_zero he hf, if_neg (by omega), if_pos he, if_pos hf]
  · rw [encodeBits_of_subnormal he hf, if_neg (by omega), if_pos he, if_neg hf]
  · rw [encodeBits_of_normal h1 h2, if_neg (by omega), if_neg (by omega), if_pos h2]
  · rw [encodeBits_of_clamp h1 h2, if_neg (by omega), if_neg (by omega), if_neg (by omega)]

/-- A well-formed instruction completes (R92) with the result of its word. -/
theorem exec_of_result {i : Instr} {r : Word} (h : i.wellFormed = true) (hr : encodeBits (encode i) = r) (s : State) :
    exec i s = .next { s with result := r, resultValid := true, busy := false } := by
  rw [exec_of_wellFormed h, ← hr]
  rfl

/-! ## The statements -/

/-- Settles O8: by the closed form of the result. -/
theorem encodeCompletesWithClosedForm : Obligations.EncodeCompletesWithClosedForm :=
  fun w s => exec_of_result (i := .encode w) rfl (encodeBits_eq_closedForm w) s

/-- Settles O9: 64 digits are the numeral of the word they spell. -/
theorem encodeDigitsSpellClosedForm : Obligations.EncodeDigitsSpellClosedForm := by
  intro w
  have hbin := bin_val (encodeSeq w)
  rw [length_encodeSeq, ← toNat_bitForm (length_encodeSeq w)] at hbin
  rw [← encodeBits_eq_closedForm, encodeBits, hbin]

/-- Settles O11: the constants are the two words, and each class is its one word. -/
theorem infinityRowsGiveTheirWords : Obligations.InfinityRowsGiveTheirWords := by
  refine ⟨fun s => exec_of_result (i := .encodePinf) rfl (encodeBits_of_infinity (w := 0x7FF0000000000000) rfl rfl) s,
    fun s => exec_of_result (i := .encodeNinf) rfl (encodeBits_of_infinity (w := 0xFFF0000000000000) rfl rfl) s,
    fun w => ⟨fun hc => ?_, fun hc => ?_⟩⟩
  · obtain ⟨he, hf, hs⟩ := (classOf_iff w .pinf).1 hc
    have hw : w = packFields false 2047 0 := eq_packFields_iff.2 ⟨hs, expField_eq_2047.2 he, eq_zero_iff_toNat.2 hf⟩
    exact ⟨hw, by rw [hw, encodeSeq_pinf]; rfl, encodeBits_of_infinity he hf⟩
  · obtain ⟨he, hf, hs⟩ := (classOf_iff w .ninf).1 hc
    have hw : w = packFields true 2047 0 := eq_packFields_iff.2 ⟨hs, expField_eq_2047.2 he, eq_zero_iff_toNat.2 hf⟩
    exact ⟨hw, by rw [hw, encodeSeq_ninf]; rfl, encodeBits_of_infinity he hf⟩

/-- Settles O12: a zero is its own result. -/
theorem zeroRowGivesSignedZero : Obligations.ZeroRowGivesSignedZero := by
  intro sg s
  exact exec_of_result (i := .encodeZero sg) rfl (encodeBits_of_zero (by simp [encode]) (by simp [encode])) s

/-- Settles O13: the result of the subnormal word. -/
theorem subnormalRowLeftAlignsMantissa : Obligations.SubnormalRowLeftAlignsMantissa := by
  intro sg f s hf
  have hwf : (Instr.encodeSubnormal sg f).wellFormed = true := bne_iff_ne.2 hf
  refine exec_of_result hwf ?_ s
  rw [encode, encodeBits_of_subnormal (by simp) (by simpa [← eq_zero_iff_toNat] using hf), signField_packFields,
    fracField_packFields, subnormalMantissa]

/-- Settles O14: a FRACTION word is its own result. -/
theorem fractionRowGivesItsWord : Obligations.FractionRowGivesItsWord := by
  intro sg e f s h1 h2
  have hwf : (Instr.encodeFraction sg e f).wellFormed = true := decide_eq_true ⟨h1, h2⟩
  refine exec_of_result hwf (encodeBits_of_normal ?_ ?_) s <;> rw [encode, expField_packFields] <;> omega

/-- Settles O15: a MIXED word is its own result. -/
theorem mixedRowGivesItsWord : Obligations.MixedRowGivesItsWord := by
  intro sg e f s h1 h2
  have hwf : (Instr.encodeMixed sg e f).wellFormed = true := decide_eq_true ⟨h1, h2⟩
  refine exec_of_result hwf (encodeBits_of_normal ?_ ?_) s <;> rw [encode, expField_packFields] <;> omega

/-- Settles O16: the clamped result keeps the sign and the mantissa field. -/
theorem clampRowForcesExponent2046 : Obligations.ClampRowForcesExponent2046 := by
  intro sg e f s h1 h2
  have hwf : (Instr.encodeClamp sg e f).wellFormed = true := decide_eq_true ⟨h1, h2⟩
  refine exec_of_result hwf ?_ s
  rw [encode, encodeBits_of_clamp (by rwa [expField_packFields]) (by rwa [expField_packFields]), signField_packFields,
    fracField_packFields]

end Sys2Proof.Machine
end

section
/-! SUPPORT. Consequences of the closed form (46_closed_form.md section 2): sign symmetry, fixed words, the round trip, the
collisions and the set of results. -/

namespace Sys2Proof.Machine

/-! ## The sign bit (R209) -/

theorem packFields_xor (s t : Digit) (d e : BitVec 11) (f g : BitVec 52) :
    packFields s d f ^^^ packFields t e g = packFields (s ^^ t) (d ^^^ e) (f ^^^ g) := by
  have h : BitVec.ofBool s ^^^ BitVec.ofBool t = BitVec.ofBool (s ^^ t) := by cases s <;> cases t <;> rfl
  unfold packFields
  rw [← h, BitVec.xor_append, BitVec.xor_append]

theorem packFields_flipSign (s : Digit) (e : BitVec 11) (f : BitVec 52) :
    packFields s e f ^^^ 0x8000000000000000 = packFields (!s) e f := by
  calc packFields s e f ^^^ 0x8000000000000000 = packFields s e f ^^^ packFields true 0#11 0#52 := rfl
    _ = packFields (!s) e f := by rw [packFields_xor, Bool.xor_true, BitVec.xor_zero, BitVec.xor_zero]

/-- Exponent and mantissa field of the result of an operand that is no NaN do not depend on its sign, which it keeps. -/
theorem encodeBits_packFields {e : BitVec 11} {f : BitVec 52} (h : ¬(e.toNat = 2047 ∧ f.toNat ≠ 0)) :
    ∃ e' f', ∀ s : Digit, encodeBits (packFields s e f) = packFields s e' f' := by
  have hlt := e.isLt
  by_cases hself : (e.toNat = 2047 ∨ e.toNat = 0) ∧ f.toNat = 0 ∨ 1 ≤ e.toNat ∧ e.toNat ≤ 1074
  · refine ⟨e, f, fun s => ?_⟩
    obtain ⟨he | he, hf⟩ | ⟨h1, h2⟩ := hself
    · exact encodeBits_of_infinity (by simpa using he) (by simpa using hf)
    · exact encodeBits_of_zero (by simpa using he) (by simpa using hf)
    · exact encodeBits_of_normal (by simpa using h1) (by simpa using h2)
  · by_cases he : e.toNat = 0
    · refine ⟨0, subnormalMantissa f, fun s => ?_⟩
      rw [encodeBits_of_subnormal (by simpa using he) (by rw [fracField_packFields]; omega), signField_packFields,
        fracField_packFields]
    · refine ⟨2046, f, fun s => ?_⟩
      rw [encodeBits_of_clamp, signField_packFields, fracField_packFields] <;> rw [expField_packFields] <;> omega

/-! ## Words that are their own result (R206) -/

theorem encodeBits_of_2046 {w : Word} (h : (expField w).toNat = 2046) : encodeBits w = w := by
  rw [encodeBits_of_clamp (by omega) (by omega), eq_comm, eq_packFields_iff]
  exact ⟨rfl, BitVec.eq_of_toNat_eq h, rfl⟩

theorem toNat_subnormalMantissa (f : BitVec 52) :
    (subnormalMantissa f).toNat = f.toNat * 2 ^ (53 - bitlen f.toNat) % 2 ^ 52 := BitVec.toNat_ofNat ..

/-- No subnormal mantissa field is already left-aligned: `2^j - 1` is odd, so `f * 2^j = f` modulo `2^52` needs `f = 0`. -/
theorem subnormalMantissa_ne {f : BitVec 52} (h : f.toNat ≠ 0) : subnormalMantissa f ≠ f := by
  intro heq
  have hb : bitlen f.toNat ≤ 52 := bitlen_le_of_lt_two_pow f.isLt
  obtain ⟨j, hj⟩ : ∃ j, 53 - bitlen f.toNat = j + 1 := ⟨52 - bitlen f.toNat, by omega⟩
  have hmod : f.toNat * 2 ^ (j + 1) ≡ f.toNat [MOD 2 ^ 52] := by
    rw [Nat.ModEq, ← hj, ← toNat_subnormalMantissa, heq, Nat.mod_eq_of_lt f.isLt]
  have hdvd : 2 ^ 52 ∣ f.toNat * (2 ^ (j + 1) - 1) := by
    rw [Nat.mul_sub_one]
    exact (Nat.modEq_iff_dvd' (Nat.le_mul_of_pos_right _ (by positivity))).1 hmod.symm
  have hodd : Nat.Coprime (2 ^ 52) (2 ^ (j + 1) - 1) := by
    refine Nat.Coprime.pow_left 52 (Nat.coprime_two_left.2 ?_)
    rw [Nat.odd_iff, Nat.pow_succ]
    have := Nat.two_pow_pos j
    omega
  exact absurd (Nat.le_of_dvd (Nat.pos_of_ne_zero h) (hodd.dvd_of_dvd_mul_right hdvd)) (Nat.not_le.2 f.isLt)

/-! ## Collisions of subnormals (R211) -/

theorem encodeBits_packFields_subnormal (s : Digit) {f : BitVec 52} (hf : f.toNat ≠ 0) :
    encodeBits (packFields s 0 f) = packFields s 0 (subnormalMantissa f) := by
  rw [encodeBits_of_subnormal (by simp) (by simpa using hf), signField_packFields, fracField_packFields]

theorem bitlen_two_pow (k : Nat) : bitlen (2 ^ k) = k + 1 :=
  bitlen_eq (Nat.succ_pos k) le_rfl (Nat.pow_lt_pow_right (by norm_num) (Nat.lt_succ_self k))

theorem subnormalMantissa_two_pow {k : Nat} (h : k < 52) : subnormalMantissa (BitVec.ofNat 52 (2 ^ k)) = 0 := by
  have hk : (BitVec.ofNat 52 (2 ^ k)).toNat = 2 ^ k := by
    rw [BitVec.toNat_ofNat, Nat.mod_eq_of_lt (Nat.pow_lt_pow_right (by norm_num) h)]
  rw [eq_zero_iff_toNat, toNat_subnormalMantissa, hk, bitlen_two_pow, ← Nat.pow_add, show k + (53 - (k + 1)) = 52 by omega,
    Nat.mod_self]

theorem subnormalMantissa_double {f : Nat} (h0 : f ≠ 0) (h : 2 * f < 2 ^ 52) :
    subnormalMantissa (BitVec.ofNat 52 (2 * f)) = subnormalMantissa (BitVec.ofNat 52 f) := by
  have hb : bitlen (2 * f) = bitlen f + 1 := by
    rw [bitlen_half (by omega), Nat.mul_div_cancel_left _ two_pos]
  have hle : bitlen (2 * f) ≤ 52 := bitlen_le_of_lt_two_pow h
  have hpow : 2 ^ (53 - bitlen f) = 2 * 2 ^ (53 - (bitlen f + 1)) := by rw [← Nat.pow_succ']; congr 1; omega
  apply BitVec.eq_of_toNat_eq
  rw [toNat_subnormalMantissa, toNat_subnormalMantissa, BitVec.toNat_ofNat, BitVec.toNat_ofNat, Nat.mod_eq_of_lt h,
    Nat.mod_eq_of_lt (show f < 2 ^ 52 by omega), hb, hpow]
  congr 1
  ring

/-! ## The statements -/

/-- Settles O34: the result's exponent and mantissa field do not depend on the sign; all NaNs have one result. -/
theorem signSymmetry : Obligations.SignSymmetry := by
  intro w
  obtain ⟨s, e, f, rfl⟩ : ∃ s e f, w = packFields s e f := ⟨_, _, _, (packFields_fields w).symm⟩
  rw [packFields_flipSign]
  refine ⟨fun hn => ?_, fun hn => ?_⟩
  · have hnot : ¬(e.toNat = 2047 ∧ f.toNat ≠ 0) := by
      rw [← Bool.not_eq_true, isNan_iff_toNat] at hn
      simpa using hn
    obtain ⟨e', f', hres⟩ := encodeBits_packFields hnot
    rw [hres, hres, packFields_flipSign]
  · have hn' : isNan (packFields (!s) e f) = true := by
      rw [isNan_iff] at hn ⊢
      simpa using hn
    rw [encodeBits_of_isNan hn, encodeBits_of_isNan hn']

/-- Settles O35: by the result of each class. -/
theorem resultDiffersFromOperandExactly : Obligations.ResultDiffersFromOperandExactly := by
  intro w
  rw [classOf_iff w .subnormal]
  obtain h | ⟨he, hf⟩ | ⟨he, hf⟩ | ⟨he, hf⟩ | ⟨h1, h2⟩ | ⟨h1, h2⟩ := fields_cases w
  · have he := ((isNan_iff_toNat w).1 h).1
    rw [encodeBits_of_isNan h, ne_comm]
    refine ⟨fun hne => .inl ⟨h, hne⟩, ?_⟩
    rintro (⟨-, hne⟩ | ⟨h0, -⟩ | ⟨-, hle⟩)
    · exact hne
    · omega
    · omega
  · rw [isNan_iff_toNat]
    exact iff_of_false (not_not.2 (encodeBits_of_infinity he hf)) (by omega)
  · rw [isNan_iff_toNat]
    exact iff_of_false (not_not.2 (encodeBits_of_zero he hf)) (by omega)
  · refine iff_of_true (fun h => subnormalMantissa_ne hf ?_) (.inr (.inl ⟨he, hf⟩))
    rw [← fracField_encodeBits_of_subnormal he hf, h]
  · rw [isNan_iff_toNat]
    exact iff_of_false (not_not.2 (encodeBits_of_normal h1 h2)) (by omega)
  · by_cases h : (expField w).toNat = 2046
    · rw [isNan_iff_toNat]
      exact iff_of_false (not_not.2 (encodeBits_of_2046 h)) (by omega)
    · refine iff_of_true (fun heq => h ?_) (.inr (.inr ⟨h1, by omega⟩))
      have hexp := toNat_expField_encodeBits w
      rw [heq, if_pos ⟨h1, h2⟩] at hexp
      exact hexp

/-- Settles O36: the operands that are their own result, and the clamp's multiple of the magnitude. -/
theorem roundTripOnItsTrueDomain : Obligations.RoundTripOnItsTrueDomain := by
  refine fun w => ⟨fun h => ?_, fun h1 h2 heq => ?_⟩
  · have hself : encodeBits w = w := h.elim (fun h => encodeBits_of_normal h.1 h.2) encodeBits_of_2046
    rw [hself]
    exact ⟨(isFinite_iff w).2 (by omega), rfl, rfl⟩
  · have habs : wordAbs w ≠ 0 := fun h0 => by
      have := ((absValue_eq_zero_iff _ _).1 h0).1
      omega
    have hpow : 1 < 2 ^ (2046 - (expField w).toNat) := Nat.one_lt_two_pow (by omega)
    rw [wordAbs_encodeBits_of_clamp ((isFinite_iff w).2 (by omega)) h1] at heq
    exact absurd heq (lt_mul_of_one_lt_right (Nat.pos_of_ne_zero habs) hpow).ne'

/-- Settles O38: one result for the NaNs, one for each sign and mantissa field under the clamp, and the left-alignment. -/
theorem encodeIsNotInjective : Obligations.EncodeIsNotInjective := by
  refine ⟨fun v w hv hw => ?_, fun v w hv hw hs hf => ?_, fun sg k hk => ?_, fun sg f h0 hf => ?_⟩
  · rw [encodeBits_of_isNan hv, encodeBits_of_isNan hw]
  · obtain ⟨hv1, hv2⟩ := (classOf_iff v .clamp).1 hv
    obtain ⟨hw1, hw2⟩ := (classOf_iff w .clamp).1 hw
    rw [encodeBits_of_clamp hv1 hv2, encodeBits_of_clamp hw1 hw2, hs, hf]
  · have hk0 : (BitVec.ofNat 52 (2 ^ k)).toNat ≠ 0 := by
      rw [BitVec.toNat_ofNat, Nat.mod_eq_of_lt (Nat.pow_lt_pow_right (by norm_num) hk)]
      positivity
    rw [encodeBits_packFields_subnormal sg hk0, subnormalMantissa_two_pow hk, encodeBits_of_zero (by simp) (by simp)]
  · have hne : ∀ x : Nat, x ≠ 0 → x < 2 ^ 52 → (BitVec.ofNat 52 x).toNat ≠ 0 := fun x hx hlt => by
      rwa [BitVec.toNat_ofNat, Nat.mod_eq_of_lt hlt]
    rw [encodeBits_packFields_subnormal sg (hne _ (by omega) hf), encodeBits_packFields_subnormal sg (hne f h0 (by omega)),
      subnormalMantissa_double h0 hf]

/-- Settles O39: the NaN word, the infinities, and the exponent fields of finite results. -/
theorem resultsLieInTheStatedSet : Obligations.ResultsLieInTheStatedSet := by
  intro w
  have hexp := toNat_expField_encodeBits w
  have hlt := (expField w).isLt
  by_cases h : (expField w).toNat = 2047
  · have hfin : isFinite w = false := by rw [← Bool.not_eq_true, isFinite_iff]; exact not_not.2 h
    rcases encodeSeq_of_not_isFinite hfin with hseq | hseq | hseq <;> rw [encodeBits, hseq]
    · exact .inl bitForm_nanConst
    · exact .inr (.inr (.inr (.inl (by decide))))
    · exact .inr (.inr (.inr (.inr (by decide))))
  · by_cases hc : 1075 ≤ (expField w).toNat
    · rw [if_pos ⟨hc, by omega⟩] at hexp
      exact .inr (.inr (.inl (BitVec.eq_of_toNat_eq hexp)))
    · rw [if_neg (by omega)] at hexp
      exact .inr (.inl (by omega))

end Sys2Proof.Machine
end

section
/-! SUPPORT. The fraction loop (R150 to R160): its digits as bits of the remainder it starts from, the remainders it goes
through, and where it stops. -/

namespace Sys2Proof.Machine

/-! ## The remainders (R152) -/

theorem remainderAfter_nextRemainder (r i : Nat) : remainderAfter (nextRemainder r) i = remainderAfter r (i + 1) := by
  induction i with
  | zero => rfl
  | succ i ih => rw [remainderAfter, ih]; rfl

theorem remainderAfter_eq {r : Nat} (h : r < magOne) (i : Nat) : remainderAfter r i = r * 2 ^ i % magOne := by
  induction i with
  | zero => rw [remainderAfter, Nat.pow_zero, Nat.mul_one, Nat.mod_eq_of_lt h]
  | succ i ih =>
    rw [remainderAfter, nextRemainder_eq_mod (ih ▸ Nat.mod_lt _ magOne_pos), ih, Nat.mul_mod_mod, Nat.pow_succ']
    congr 1
    ring

theorem remainderAfter_lt {r : Nat} (h : r < magOne) (i : Nat) : remainderAfter r i < magOne :=
  remainderAfter_eq h i ▸ Nat.mod_lt _ magOne_pos

/-! ## Where the loop stops (R156, R159) -/

theorem remainderAfter_ne_zero_of_lt_length {fuel r : Nat} {sh : Int} {seen : Bool} {i : Nat}
    (hi : i < (fracLoop fuel r sh seen).FD.length) : remainderAfter r i ≠ 0 := by
  induction fuel generalizing r sh seen i with
  | zero => simp [fracLoop] at hi
  | succ fuel ih =>
    by_cases h : r = 0
    · simp [h, fracLoop_zero_remainder] at hi
    · cases i with
      | zero => exact h
      | succ i =>
        rw [fracLoop_succ h, List.length_cons] at hi
        rw [← remainderAfter_nextRemainder]
        exact ih (Nat.lt_of_succ_lt_succ hi)

theorem remainderAfter_length_of_lt_fuel {fuel r : Nat} {sh : Int} {seen : Bool}
    (hlt : (fracLoop fuel r sh seen).FD.length < fuel) : remainderAfter r (fracLoop fuel r sh seen).FD.length = 0 := by
  induction fuel generalizing r sh seen with
  | zero => omega
  | succ fuel ih =>
    by_cases h : r = 0
    · rw [h, fracLoop_zero_remainder]; rfl
    · rw [fracLoop_succ h, List.length_cons] at hlt ⊢
      rw [← remainderAfter_nextRemainder]
      exact ih (Nat.lt_of_succ_lt_succ hlt)

/-- A bound the loop does not need beyond remainder 0 changes nothing (log 11). -/
theorem fracLoop_add {fuel r : Nat} (h : remainderAfter r fuel = 0) (k : Nat) (sh : Int) (seen : Bool) :
    fracLoop (fuel + k) r sh seen = fracLoop fuel r sh seen := by
  induction fuel generalizing r sh seen with
  | zero => rw [show r = 0 from h, fracLoop_zero_remainder, fracLoop_zero_remainder]
  | succ fuel ih =>
    by_cases h0 : r = 0
    · rw [h0, fracLoop_zero_remainder, fracLoop_zero_remainder]
    · rw [Nat.add_right_comm, fracLoop_succ h0, fracLoop_succ h0, ih (remainderAfter_nextRemainder r fuel ▸ h)]

theorem length_fracExpand_le (r n : Nat) : (fracExpand r n).FD.length ≤ 1074 := unitBits_eq ▸ fracExpand_length_le r n

theorem remainderAfter_1074 {r : Nat} (h : r < magOne) : remainderAfter r 1074 = 0 := by
  rw [remainderAfter_eq h, magOne, unitBits_eq, Nat.mul_mod_left]

theorem remainderAfter_length_fracExpand {r : Nat} (h : r < magOne) (n : Nat) :
    remainderAfter r (fracExpand r n).FD.length = 0 := by
  rcases Nat.lt_or_eq_of_le (fracExpand_length_le r n) with hlt | heq
  · exact remainderAfter_length_of_lt_fuel hlt
  · rw [heq, unitBits_eq, remainderAfter_1074 h]

/-! ## The digits (R152) -/

theorem fracExpand_padded {r : Nat} (h : r < magOne) (n : Nat) :
    (fracExpand r n).FD ++ zeros (1074 - (fracExpand r n).FD.length) = bin 1074 r := by
  have hpad := fracExpand_FD_padded r n
  rwa [show magFraction r = r from Nat.mod_eq_of_lt h, unitBits_eq] at hpad

/-- Digit `i + 1` is bit `1073 - i` of the number of units. -/
theorem getElem?_fracExpand {r : Nat} (h : r < magOne) {n i : Nat} (hi : i < (fracExpand r n).FD.length) :
    (fracExpand r n).FD[i]? = some (r.testBit (1073 - i)) := by
  have hL := length_fracExpand_le r n
  rw [← List.getElem?_append_left hi, fracExpand_padded h, getElem?_bin _ _ _ (by omega)]

theorem testBit_eq_digit {r i : Nat} (hi : i < 1074) :
    r.testBit (1073 - i) = decide (r * 2 ^ (i + 1) / magOne % 2 = 1) := by
  have hpow : 2 ^ 1074 = 2 ^ (1073 - i) * 2 ^ (i + 1) := by rw [← Nat.pow_add]; congr 1; omega
  rw [Nat.testBit_eq_decide_div_mod_eq, magOne, unitBits_eq, hpow, Nat.mul_div_mul_right _ _ (by positivity)]

theorem val_fracExpand {r : Nat} (h : r < magOne) (n : Nat) :
    val (fracExpand r n).FD * 2 ^ (1074 - (fracExpand r n).FD.length) = r := by
  have hval := congrArg val (fracExpand_padded h n)
  rwa [val_append, val_zeros, length_zeros, Nat.add_zero, val_bin, Nat.mod_eq_of_lt (by rwa [magOne, unitBits_eq] at h)]
    at hval

/-- A last digit 0 would leave the remainder 0 one iteration earlier. -/
theorem getLast?_fracExpand {r : Nat} (h : r < magOne) {n : Nat} (hne : (fracExpand r n).FD ≠ []) :
    (fracExpand r n).FD.getLast? = some true := by
  have hL := length_fracExpand_le r n
  obtain ⟨k, hk⟩ := Nat.exists_eq_succ_of_ne_zero (List.length_pos_iff.2 hne).ne'
  have hend := remainderAfter_length_fracExpand h n
  have hbefore : remainderAfter r k ≠ 0 := remainderAfter_ne_zero_of_lt_length (hk ▸ Nat.lt_succ_self k)
  rw [hk, remainderAfter_eq h, Nat.pow_succ, ← Nat.mul_assoc] at hend
  rw [remainderAfter_eq h] at hbefore
  rw [List.getLast?_eq_getElem?, hk, Nat.succ_sub_one, getElem?_fracExpand h (by omega), testBit_eq_digit (by omega),
    Option.some.injEq, decide_eq_true_eq, Nat.pow_succ, ← Nat.mul_assoc]
  obtain ⟨q, hq⟩ := Nat.dvd_of_mod_eq_zero hend
  rw [hq, Nat.mul_div_cancel_left _ magOne_pos]
  by_contra hodd
  obtain ⟨c, rfl⟩ : 2 ∣ q := by omega
  refine hbefore (Nat.mod_eq_zero_of_dvd ⟨c, ?_⟩)
  linarith

/-! ## The first 1 digit (R154) -/

theorem shift_of_ne_zero {r : Nat} (h : r < magOne) (h0 : r ≠ 0) (n : Nat) :
    (fracExpand r n).shift = (bitlen r : Int) - 1074 := by
  have hfr : magFraction r = r := Nat.mod_eq_of_lt h
  have hsh := fracExpand_shift_eq (a := r) (by rwa [hfr]) n
  rwa [hfr, unitBits_eq] at hsh

theorem bitlen_le_of_lt_magOne {r : Nat} (h : r < magOne) : bitlen r ≤ 1074 :=
  bitlen_le_of_lt_two_pow (by rwa [magOne, unitBits_eq] at h)

theorem bitlen_pos {x : Nat} (h : x ≠ 0) : 1 ≤ bitlen x := Nat.pos_of_ne_zero fun hb => h ((bitlen_eq_zero_iff x).1 hb)

theorem firstOne_of_ne_zero {r : Nat} (h : r < magOne) (h0 : r ≠ 0) (n : Nat) :
    firstOne (fracExpand r n).shift = 1075 - bitlen r := by
  have hb := bitlen_le_of_lt_magOne h
  rw [firstOne, shift_of_ne_zero h h0]
  omega

/-- The first 1 digit is one of `FD`. -/
theorem firstOne_le_length {r : Nat} (h : r < magOne) (h0 : r ≠ 0) (n : Nat) :
    firstOne (fracExpand r n).shift ≤ (fracExpand r n).FD.length := by
  have hfr : magFraction r = r := Nat.mod_eq_of_lt h
  have hlead := leadingZeros_lt (fracExpand_has_one (a := r) (by rwa [hfr]) n)
  rw [hfr] at hlead
  rw [firstOne, fracExpand_shift]
  omega

theorem testBit_bitlen_pred {x : Nat} (h : x ≠ 0) : x.testBit (bitlen x - 1) = true := by
  rw [bitlen, if_neg h, Nat.add_sub_cancel, Nat.testBit_log2 h]

/-! ## The statements -/

/-- Settles O22: the digits are the leading bits of the number of units, up to its last 1 bit. -/
theorem fractionDigitsAreTheExpansion : Obligations.FractionDigitsAreTheExpansion := by
  intro r0 n h
  have hL := length_fracExpand_le r0 n
  refine ⟨?_, fun i hi => ?_, getLast?_fracExpand h⟩
  · have hone : magOne = 2 ^ (1074 - (fracExpand r0 n).FD.length) * 2 ^ (fracExpand r0 n).FD.length := by
      rw [← Nat.pow_add, Nat.sub_add_cancel hL, magOne, unitBits_eq]
    rw [hone, ← Nat.mul_assoc, val_fracExpand h]
  · rw [getElem?_fracExpand h hi, testBit_eq_digit (by omega)]

/-- Settles O23: the loop runs while the remainder is not 0, and after 1074 iterations it is. -/
theorem fractionLoopEndsAtZeroRemainder : Obligations.FractionLoopEndsAtZeroRemainder := by
  intro r0 n h
  refine ⟨remainderAfter_eq h, remainderAfter_length_fracExpand h n, fun i hi => remainderAfter_ne_zero_of_lt_length hi,
    length_fracExpand_le r0 n, fun k => fracLoop_add ?_ k 0 false⟩
  rw [maxFracDigits, unitBits_eq, remainderAfter_1074 h]

/-- Settles O25: `p1` is 1075 less the length of the number of units, the place of its leading bit. -/
theorem firstOneLocatesTheRemainder : Obligations.FirstOneLocatesTheRemainder := by
  intro r0 n h h0
  have hb := bitlen_le_of_lt_magOne h
  have hb1 := bitlen_pos h0
  have hle := firstOne_le_length h h0 n
  have hlow := (bitlen_bounds h0).1
  have hhigh := (bitlen_bounds h0).2
  have hshift := shift_of_ne_zero h h0 n
  rw [firstOne_of_ne_zero h h0] at hle ⊢
  refine ⟨by omega, by omega, ?_, fun j hj => ?_, ?_, ?_⟩
  · rw [getElem?_fracExpand h (by omega), show 1073 - (1075 - bitlen r0 - 1) = bitlen r0 - 1 by omega,
      testBit_bitlen_pred h0]
  · rw [getElem?_fracExpand h (by omega), Nat.testBit_lt_two_pow]
    exact Nat.lt_of_lt_of_le hhigh (Nat.pow_le_pow_right (by norm_num) (by omega))
  · calc magOne = 2 ^ (bitlen r0 - 1) * 2 ^ (1075 - bitlen r0) := by
          rw [← Nat.pow_add, magOne, unitBits_eq]; congr 1; omega
      _ ≤ r0 * 2 ^ (1075 - bitlen r0) := Nat.mul_le_mul_right _ hlow
  · calc r0 * 2 ^ (1075 - bitlen r0 - 1) < 2 ^ bitlen r0 * 2 ^ (1075 - bitlen r0 - 1) :=
          Nat.mul_lt_mul_of_pos_right hhigh (by positivity)
      _ = magOne := by rw [← Nat.pow_add, magOne, unitBits_eq]; congr 1; omega

end Sys2Proof.Machine
end

section
/-! SUPPORT. The magnitude of an operand (R63) and its integer digits (R131 to R137). -/

namespace Sys2Proof.Machine

/-! ## The magnitude as a number of units -/

theorem magOne_eq : magOne = 2 ^ 1074 := by rw [magOne, unitBits_eq]

/-- The last 1 digit of a magnitude is one of its first 53 digits. -/
theorem two_pow_dvd_absValue (e : BitVec 11) (f : BitVec 52) : 2 ^ (bitlen (absValue e f) - 53) ∣ absValue e f := by
  by_cases he : e.toNat = 0
  · have hb := bitlen_absValue_le_of_eq_zero he f
    rw [Nat.sub_eq_zero_of_le (by omega), Nat.pow_zero]
    exact one_dvd _
  · rw [bitlen_absValue_of_ne_zero he, absValue_of_ne_zero he, show e.toNat + 52 - 53 = e.toNat - 1 by omega]
    exact Nat.dvd_mul_left _ _

theorem bitlen_magFloor (a : Nat) : bitlen (magFloor a) = bitlen a - 1074 := by
  rw [magFloor, magOne_eq, bitlen_div_two_pow]

theorem magFloor_eq_zero {a : Nat} (h : a < magOne) : magFloor a = 0 := Nat.div_eq_of_lt h

theorem bin_eq_zeros_of_dvd {k x : Nat} (h : 2 ^ k ∣ x) : bin k x = zeros k := by
  rw [← bin_mod k x le_rfl, Nat.mod_eq_zero_of_dvd h, bin_zero]

theorem eq_false_of_mem_zeros {k : Nat} {d : Digit} (h : d ∈ zeros k) : d = false := List.eq_of_mem_replicate h

/-! ## The integer digits -/

theorem intExpand_of_mixed {e : BitVec 11} (f : BitVec 52) (h1 : 1023 ≤ e.toNat) (h2 : e.toNat ≤ 1074) :
    intExpand (magFloor (absValue e f)) =
      ⟨bin (e.toNat - 1022) ((2 ^ 52 + f.toNat) / 2 ^ (53 - (e.toNat - 1022))), e.toNat - 1022⟩ := by
  have hb : bitlen (magFloor (absValue e f)) = e.toNat - 1022 := by
    rw [bitlen_magFloor, bitlen_absValue_of_ne_zero (by omega)]; omega
  have hI : magFloor (absValue e f) = (2 ^ 52 + f.toNat) / 2 ^ (53 - (e.toNat - 1022)) := by
    have hpow : 2 ^ 1074 = 2 ^ (53 - (e.toNat - 1022)) * 2 ^ (e.toNat - 1) := by rw [← Nat.pow_add]; congr 1; omega
    rw [magFloor, magOne_eq, hpow, absValue_of_ne_zero (by omega), Nat.mul_div_mul_right _ _ (by positivity)]
  rw [intExpand_eq, hb, hI, List.take_of_length_le (by rw [length_bin]; omega), Nat.min_eq_right (by omega)]

theorem intExpand_of_clamp {e : BitVec 11} (f : BitVec 52) (h : 1075 ≤ e.toNat) :
    intExpand (magFloor (absValue e f)) = ⟨true :: bin 52 f.toNat, 53⟩ := by
  have hf := f.isLt
  have hb : bitlen (magFloor (absValue e f)) = e.toNat - 1022 := by
    rw [bitlen_magFloor, bitlen_absValue_of_ne_zero (by omega)]; omega
  have htop : magFloor (absValue e f) / 2 ^ (e.toNat - 1022 - 53) = 2 ^ 52 + f.toNat := by
    rw [magFloor, magOne_eq, Nat.div_div_eq_div_mul, ← Nat.pow_add, show 1074 + (e.toNat - 1022 - 53) = e.toNat - 1 by omega,
      absValue_of_ne_zero (by omega), Nat.mul_div_cancel _ (by positivity)]
  rw [intExpand_eq, hb, take_bin _ (by omega), htop, bin_one_cons (by omega) (by omega), Nat.min_eq_left (by omega),
    ← bin_mod 52 (2 ^ 52 + f.toNat) le_rfl, Nat.add_mod_left, bin_mod 52 _ le_rfl]

/-- The digits the integer cut takes away are 0 (R137). -/
theorem intDigits_drop_53 (e : BitVec 11) (f : BitVec 52) :
    (intDigits (magFloor (absValue e f))).drop 53 = zeros (bitlen (magFloor (absValue e f)) - 53) := by
  rw [intDigits_eq_bin, drop_bin]
  refine bin_eq_zeros_of_dvd ?_
  rcases Nat.le_total (bitlen (magFloor (absValue e f))) 53 with hle | hge
  · rw [Nat.sub_eq_zero_of_le hle, Nat.pow_zero]
    exact one_dvd _
  · have hdvd := two_pow_dvd_absValue e f
    rw [bitlen_magFloor] at hge ⊢
    have hcut : bitlen (absValue e f) - 53 = unitBits + (bitlen (absValue e f) - 1074 - 53) := by
      rw [unitBits_eq]; omega
    rw [hcut, Nat.pow_add] at hdvd
    exact Nat.dvd_div_of_mul_dvd hdvd

/-! ## The statements -/

/-- Settles O18: the units of the numerator and of 1 are powers of 2 to be taken apart. -/
theorem absValueIsTheOperandsMagnitude : Obligations.AbsValueIsTheOperandsMagnitude := by
  have hone : (magOne : ℚ) = 2 ^ 1074 := by rw [magOne_eq, Nat.cast_pow, Nat.cast_ofNat]
  refine ⟨fun f => ?_, fun e f h1 h2 => ?_⟩
  · rw [absValue_of_eq_zero (by decide), hone, div_eq_mul_inv, zpow_neg]
    rfl
  · have hexp : (e.toNat : ℤ) - 1075 = ((e.toNat - 1 : ℕ) : ℤ) - (1074 : ℕ) := by omega
    rw [absValue_of_ne_zero (by omega), hone, hexp, zpow_sub₀ two_ne_zero, zpow_natCast, zpow_natCast, ← mul_div_assoc]
    push_cast
    rfl

/-- Settles O19: INT_DIGITS is the numeral of `bitlen(I)` digits. -/
theorem intDigitsAreTheNumeral : Obligations.IntDigitsAreTheNumeral := by
  intro I
  refine ⟨?_, ?_, fun h => ?_, ?_, fun k => ?_⟩
  · rw [intDigits_eq_bin, val_bin, Nat.mod_eq_of_lt (lt_two_pow_bitlen I)]
  · rw [intDigits_eq_bin, length_bin]
  · obtain ⟨hlow, hhigh⟩ := bitlen_bounds h
    obtain ⟨k, hk⟩ := Nat.exists_eq_add_of_le' (bitlen_pos h)
    rw [hk] at hlow hhigh
    rw [Nat.add_sub_cancel] at hlow
    rw [intDigits_eq_bin, hk, bin_one_cons hlow hhigh, List.head?_cons]
  · rintro rfl
    rfl
  · rw [intDigits, intDigitLoop_eq _ _ (Nat.le_add_right _ _), intDigitLoop_eq _ _ le_rfl]

/-- Settles O21: by the exponent field; the digits the cut takes away are 0 since the first 53 hold every 1. -/
theorem integerDigitsInOperandFields : Obligations.IntegerDigitsInOperandFields := by
  refine fun e f => ⟨fun h => ?_, intExpand_of_mixed f, fun h _ => intExpand_of_clamp f h, fun _ d hd => ?_⟩
  · rw [magFloor_eq_zero (absValue_lt_magOne h f), intExpand_zero]
  · rw [intDigits_drop_53] at hd
    exact eq_false_of_mem_zeros hd

end Sys2Proof.Machine
end

section
/-! SUPPORT. The transaction-local values of a finite operand (R28): the exponent before the forces, the digits outside the
mantissa window (R183), and the ranges. -/

namespace Sys2Proof.Machine

section

variable (w : Word)

/-! ## The locals by name -/

theorem localsOf_n0 : (localsOf w).n0 = bitlen (magFloor (wordAbs w)) := rfl
theorem localsOf_FD : (localsOf w).FD = (fracExpand (localsOf w).r0 (localsOf w).n).FD := rfl
theorem localsOf_shift : (localsOf w).shift = (fracExpand (localsOf w).r0 (localsOf w).n).shift := rfl
theorem localsOf_p1 : (localsOf w).p1 = if (localsOf w).r0 = 0 then none else some (firstOne (localsOf w).shift) := rfl

theorem localsOf_r0_lt : (localsOf w).r0 < magOne := Nat.mod_lt _ magOne_pos

theorem localsOf_n_le : (localsOf w).n ≤ 53 := localsOf_n w ▸ Nat.min_le_left _ _

variable {w}

theorem bitlen_wordAbs_le (h : isFinite w = true) : bitlen (wordAbs w) ≤ 2098 := by
  have hlt := (expField w).isLt
  have hne := (isFinite_iff w).1 h
  by_cases he : (expField w).toNat = 0
  · have hb : bitlen (wordAbs w) ≤ 52 := bitlen_absValue_le_of_eq_zero he _
    omega
  · have hb : bitlen (wordAbs w) = (expField w).toNat + 52 := bitlen_absValue_of_ne_zero he _
    omega

/-- The greatest magnitude of a finite operand is `(2^53 - 1) * 2^971`. -/
theorem wordAbs_le (h : isFinite w = true) : wordAbs w ≤ (2 ^ 53 - 1) * 2 ^ 971 * magOne := by
  have hlt := (expField w).isLt
  have hf := (fracField w).isLt
  have hne := (isFinite_iff w).1 h
  have hmax : (2 ^ 53 - 1) * 2 ^ 971 * magOne = (2 ^ 53 - 1) * 2 ^ (971 + unitBits) := by
    rw [magOne, Nat.mul_assoc, ← Nat.pow_add]
  rw [hmax, wordAbs]
  by_cases he : (expField w).toNat = 0
  · rw [absValue_of_eq_zero he]
    exact Nat.le_trans (by omega) (Nat.le_mul_of_pos_right (2 ^ 53 - 1) (Nat.two_pow_pos _))
  · rw [absValue_of_ne_zero he]
    exact Nat.mul_le_mul (by omega) (Nat.pow_le_pow_right two_pos (by rw [unitBits_eq]; omega))

/-! ## The raw exponent (R171) -/

theorem localsOf_exp_raw_of_lt_one (h0 : wordAbs w ≠ 0) (h : wordAbs w < magOne) :
    (localsOf w).exp_raw = (bitlen (wordAbs w) : Int) - 52 := by
  have hn : (localsOf w).n = 0 := by
    have hb := bitlen_le_of_lt_magOne h
    rw [localsOf_n]; omega
  rw [localsOf_exp_raw, hn, localsOf_shift_of_lt_one h0 h, expRaw, intEmpty, bias]
  simp only [BEq.rfl, if_true]
  push_cast
  ring

theorem localsOf_exp_raw_of_integer (h : (localsOf w).n ≠ 0) : (localsOf w).exp_raw = (localsOf w).n + 1022 := by
  rw [localsOf_exp_raw, expRaw, intEmpty, beq_false_of_ne h, bias]
  simp only [Bool.false_eq_true, if_false]
  push_cast
  ring

theorem lt_magOne_of_n_eq_zero (h : (localsOf w).n = 0) : wordAbs w < magOne := by
  rw [localsOf_n] at h
  rw [magOne_eq]
  exact Nat.lt_of_not_le fun hle => absurd (bitlen_ge.2 hle) (by omega)

theorem localsOf_exp_raw_neg_iff (h : isFinite w = true) :
    (localsOf w).exp_raw < 0 ↔ classOf w = .subnormal ∧ bitlen (fracField w).toNat ≤ 51 := by
  have hne := (isFinite_iff w).1 h
  rw [classOf_iff]
  by_cases hn : (localsOf w).n = 0
  · have hlt := lt_magOne_of_n_eq_zero hn
    by_cases h0 : wordAbs w = 0
    · have hzero := (absValue_eq_zero_iff _ _).1 h0
      rw [localsOf_exp_raw_of_zero h0]
      omega
    · rw [localsOf_exp_raw_of_lt_one h0 hlt]
      by_cases he : (expField w).toNat = 0
      · have ha : wordAbs w = (fracField w).toNat := absValue_of_eq_zero he _
        rw [ha] at h0 ⊢
        omega
      · have hb : bitlen (wordAbs w) = (expField w).toNat + 52 := bitlen_absValue_of_ne_zero he _
        omega
  · have he : (expField w).toNat ≠ 0 := fun he => by
      have hb : bitlen (wordAbs w) ≤ 52 := bitlen_absValue_le_of_eq_zero he _
      rw [localsOf_n] at hn
      omega
    rw [localsOf_exp_raw_of_integer hn]
    omega

/-! ## The digits outside the window (R183) -/

/-- The fraction digits from position `k` on are 0 when the remainder is a multiple of the value of digit `k`. -/
theorem eq_false_of_mem_fracExpand_drop {r k n : Nat} (h : r < magOne) (hdvd : 2 ^ (1074 - k) ∣ r) {d : Digit}
    (hd : d ∈ (fracExpand r n).FD.drop k) : d = false := by
  have hzeros : (bin 1074 r).drop k = zeros (1074 - k) := by rw [drop_bin, bin_eq_zeros_of_dvd hdvd]
  rw [← fracExpand_padded h n, List.drop_append] at hzeros
  exact eq_false_of_mem_zeros (hzeros ▸ List.mem_append_left _ hd)

theorem two_pow_dvd_magFraction {k a : Nat} (hk : k ≤ 1074) (h : 2 ^ k ∣ a) : 2 ^ k ∣ magFraction a := by
  have hone : 2 ^ k ∣ magOne := Nat.pow_dvd_pow 2 (by rwa [unitBits_eq])
  exact (Nat.dvd_mod_iff hone).2 h

/-! ## Ranges -/

theorem localsOf_shift_range : -1073 ≤ (localsOf w).shift ∧ (localsOf w).shift ≤ 0 := by
  have hlt := localsOf_r0_lt w
  rw [localsOf_shift]
  by_cases h0 : (localsOf w).r0 = 0
  · rw [h0, fracExpand_zero]; decide
  · have hb := bitlen_le_of_lt_magOne hlt
    have hpos := bitlen_pos h0
    rw [shift_of_ne_zero hlt h0]
    omega

theorem localsOf_exp_raw_range : -51 ≤ (localsOf w).exp_raw ∧ (localsOf w).exp_raw ≤ 1075 := by
  by_cases hn : (localsOf w).n = 0
  · have hlt := lt_magOne_of_n_eq_zero hn
    by_cases h0 : wordAbs w = 0
    · rw [localsOf_exp_raw_of_zero h0]; decide
    · have hb := bitlen_le_of_lt_magOne hlt
      have hpos := bitlen_pos h0
      rw [localsOf_exp_raw_of_lt_one h0 hlt]
      omega
  · have hle := localsOf_n_le w
    rw [localsOf_exp_raw_of_integer hn]
    omega

theorem localsOf_p1_eq_none_iff : (localsOf w).p1 = none ↔ (localsOf w).r0 = 0 := by
  rw [localsOf_p1]
  split_ifs with h <;> simp [h]

theorem localsOf_p1_range {p : Nat} (h : (localsOf w).p1 = some p) : 1 ≤ p ∧ p ≤ 1074 := by
  have hlt := localsOf_r0_lt w
  have h0 : (localsOf w).r0 ≠ 0 := fun h0 => by simp [localsOf_p1_eq_none_iff.2 h0] at h
  have hb := bitlen_le_of_lt_magOne hlt
  have hpos := bitlen_pos h0
  rw [localsOf_p1, if_neg h0, localsOf_shift, firstOne_of_ne_zero hlt h0, Option.some.injEq] at h
  omega

end

/-! ## The statements -/

/-- Settles O26: `exp` by the exponent field, the raw exponent by the length of the magnitude. -/
theorem exponentByOperandClass : Obligations.ExponentByOperandClass := by
  refine fun w h => ⟨?_, localsOf_exp_raw_neg_iff h⟩
  have hne := (isFinite_iff w).1 h
  rw [localsOf_exp]
  cases hc : classOf w with
  | nan => exact absurd ((classOf_iff w _).1 hc).1 hne
  | pinf => exact absurd ((classOf_iff w _).1 hc).1 hne
  | ninf => exact absurd ((classOf_iff w _).1 hc).1 hne
  | zero => rw [((classOf_iff w _).1 hc).1]; rfl
  | subnormal => rw [((classOf_iff w _).1 hc).1]; rfl
  | fraction => exact if_neg (by have := (classOf_iff w _).1 hc; omega)
  | mixed => exact if_neg (by have := (classOf_iff w _).1 hc; omega)
  | clamp => exact if_pos ((classOf_iff w _).1 hc).1

/-- Settles O29: the last 1 of the magnitude is one of its first 53 digits, which the window holds. -/
theorem noOneDigitOutsideTheWindow : Obligations.NoOneDigitOutsideTheWindow := by
  intro w _
  have hdvd : 2 ^ (bitlen (wordAbs w) - 53) ∣ wordAbs w := two_pow_dvd_absValue _ _
  have hlt := localsOf_r0_lt w
  refine ⟨fun hn d hd => ?_, fun hn d hd => ?_⟩
  · refine eq_false_of_mem_fracExpand_drop hlt (two_pow_dvd_magFraction (by omega) ?_) hd
    refine Nat.dvd_trans (Nat.pow_dvd_pow 2 ?_) hdvd
    rw [localsOf_n] at hn ⊢
    omega
  · by_cases h0 : (localsOf w).r0 = 0
    · simp [localsOf_FD, h0, fracExpand_zero] at hd
    · have hr : (localsOf w).r0 = wordAbs w := Nat.mod_eq_of_lt (lt_magOne_of_n_eq_zero hn)
      have hb := bitlen_le_of_lt_magOne hlt
      refine eq_false_of_mem_fracExpand_drop hlt (two_pow_dvd_magFraction (by omega) ?_) hd
      refine Nat.dvd_trans (Nat.pow_dvd_pow 2 ?_) hdvd
      rw [localsOf_shift, firstOne_of_ne_zero hlt h0, hr]
      omega

/-- Settles O30: one range lemma for each value. -/
theorem transactionLocalsStayInRange : Obligations.TransactionLocalsStayInRange := by
  intro w h
  have hf := (fracField w).isLt
  have hlt := localsOf_r0_lt w
  have hL : (localsOf w).FD.length ≤ 1074 := length_fracExpand_le _ _
  have hn0 : (localsOf w).n0 ≤ 1024 := by
    have hb := bitlen_wordAbs_le h
    rw [localsOf_n0, bitlen_magFloor]; omega
  have hexp : (localsOf w).exp ≤ 2046 := by rw [localsOf_exp]; split_ifs <;> omega
  have ha := wordAbs_le h
  have hI : (localsOf w).I ≤ (2 ^ 53 - 1) * 2 ^ 971 := Nat.div_le_of_le_mul (Nat.mul_comm _ magOne ▸ ha)
  have hID : (localsOf w).ID.length ≤ 53 := length_intExpand_ID_le _
  have hseq := encodeSeq_of_isFinite h
  refine ⟨Nat.le_of_lt_succ (expField w).isLt, Nat.le_sub_one_of_lt hf, ?_, hI, hlt, remainderAfter_lt hlt, rfl, hID, hL,
    hseq ▸ length_encodeSeq w, localsOf_p1_eq_none_iff, hn0, localsOf_n_le w, rfl, hL, localsOf_shift_range.1,
    localsOf_shift_range.2, localsOf_exp_raw_range.1, localsOf_exp_raw_range.2, hexp, length_mantissaDigits_le hID _ _,
    fun _ hp => localsOf_p1_range hp, hseq.symm⟩
  rcases Nat.eq_zero_or_pos (wordAbs w) with h0 | hpos
  · exact .inl h0
  · exact .inr ⟨hpos, ha⟩

/-- Settles O31: the constants have 64 digits, and the assembler pads to 64 (R179). -/
theorem encodeGives64Digits : Obligations.EncodeGives64Digits := length_encodeSeq

end Sys2Proof.Machine
end

section
/-! SUPPORT. The character view of a result (R72): its bytes are the codes of the digits. -/

namespace Sys2Proof.Machine

theorem charValue_lt (w : Word) (k : Nat) : charValue w k < 2 ^ (8 * k) := by
  induction k with
  | zero => exact Nat.one_pos
  | succ k ih =>
    have hc := (charOf (w.getLsbD k)).isLt
    calc charValue w (k + 1) < (charOf (w.getLsbD k)).toNat * 2 ^ (8 * k) + 2 ^ (8 * k) := Nat.add_lt_add_left ih _
      _ = ((charOf (w.getLsbD k)).toNat + 1) * 2 ^ (8 * k) := (Nat.succ_mul _ _).symm
      _ ≤ 2 ^ 8 * 2 ^ (8 * k) := Nat.mul_le_mul_right _ hc
      _ = 2 ^ (8 * (k + 1)) := by rw [← Nat.pow_add]; congr 1; omega

/-- Byte `j` is the code of bit `j` of the word. -/
theorem charValue_byte (w : Word) {j k : Nat} (h : j < k) :
    charValue w k / 2 ^ (8 * j) % 2 ^ 8 = (charOf (w.getLsbD j)).toNat := by
  induction k with
  | zero => omega
  | succ k ih =>
    rw [charValue]
    by_cases hj : j = k
    · subst hj
      rw [Nat.mul_comm, Nat.mul_add_div (by positivity), Nat.div_eq_of_lt (charValue_lt w j), Nat.add_zero,
        Nat.mod_eq_of_lt (charOf (w.getLsbD j)).isLt]
    · obtain ⟨m, hm⟩ : ∃ m, 8 * k = 8 * j + (8 + m) := ⟨8 * k - 8 * j - 8, by omega⟩
      rw [← ih (by omega), hm, Nat.pow_add, Nat.pow_add, Nat.mul_left_comm, Nat.mul_add_div (by positivity),
        Nat.mul_left_comm, Nat.mul_add_mod]

theorem extractLsb'_charView (w : Word) {j : Nat} (h : j < 64) :
    (charView w).extractLsb' (8 * j) 8 = charOf (w.getLsbD j) := by
  refine BitVec.eq_of_getLsbD_eq fun i hi => ?_
  have hpos : 8 * j + i < 512 := by omega
  have hbit : (charOf (w.getLsbD j)).getLsbD i = (charValue w outLen).testBit (i + 8 * j) := by
    rw [BitVec.getLsbD, ← charValue_byte w h, Nat.testBit_mod_two_pow, decide_eq_true hi, Bool.true_and,
      Nat.testBit_div_two_pow, outLen]
  rw [BitVec.getLsbD_extractLsb', charView, BitVec.getLsbD_ofNat, hbit, decide_eq_true hi, decide_eq_true hpos,
    Bool.true_and, Bool.true_and, Nat.add_comm]

theorem charOf_eq (d : Digit) : charOf d = BitVec.ofNat 8 (0x30 + d.toNat) := by cases d <;> rfl

/-! ## The statement -/

/-- Settles O40: byte `63 - p` is the code of bit `63 - p` of RESULT, the digit at position `p`. -/
theorem characterViewOfTheResult : Obligations.CharacterViewOfTheResult := by
  intro s w p hvalid hresult hp
  refine ⟨_, getElem?_eq_getLsbD_bitForm (length_encodeSeq w) hp, ?_⟩
  rw [State.outChars_of_valid hvalid, hresult, show 504 - 8 * p = 8 * (63 - p) by omega, extractLsb'_charView _ (by omega),
    charOf_eq]
  rfl

end Sys2Proof.Machine
end
